-- ==== Sys2Proof/Word.lean ====
section
/-! DEFINITION. The word types of the machine (10_state.md R20-R33; 30_encoding.md R72). -/

namespace Sys2Proof

/-- A memory cell, a general register, a timer or an immediate `kk` (R21, R22, R28, R72). -/
abbrev Byte := BitVec 8

/-- An opcode, `I`, `PC` or a stack entry (R24, R25, R27, R70). -/
abbrev Word := BitVec 16

/-- A register index, a 4-bit opcode field, so always in range (R22, R72). -/
abbrev Reg := BitVec 4

/-- An opcode nibble used as a number: the sprite height `n` or a key number (R72, R190). -/
abbrev Nibble := BitVec 4

/-- The immediate address `nnn`, and the address of the raw memory port (R72, R227). -/
abbrev Addr := BitVec 12

/-- Register 0xF, the flag register (R23). -/
abbrev VF : Reg := 0xF#4

end Sys2Proof
end

