-- ==== Sys2Proof/Syntax.lean ====
section
/-! DEFINITION. The instructions: one constructor for each of the 35 rows of 30_encoding.md R74, with the fields that
`Decode` of R75 returns. The don't-care fields of R73 (`nnn` of SYS, `y` of SHR and SHL) are kept, so that a constructor
with its fields is exactly one opcode (log 10). -/

namespace Sys2Proof

/-- An instruction of the opcode map (R74); the name is R75's, the comment the row's pattern. -/
inductive Instr where
  /-- `0nnn` except `00E0` and `00EE` -/
  | sys (nnn : Addr)
  /-- `00E0` -/
  | cls
  /-- `00EE` -/
  | ret
  /-- `1nnn` -/
  | jp (nnn : Addr)
  /-- `2nnn` -/
  | call (nnn : Addr)
  /-- `3xkk` -/
  | seK (x : Reg) (kk : Byte)
  /-- `4xkk` -/
  | sneK (x : Reg) (kk : Byte)
  /-- `5xy0` -/
  | seV (x y : Reg)
  /-- `6xkk` -/
  | ldK (x : Reg) (kk : Byte)
  /-- `7xkk` -/
  | addK (x : Reg) (kk : Byte)
  /-- `8xy0` -/
  | ldV (x y : Reg)
  /-- `8xy1` -/
  | orV (x y : Reg)
  /-- `8xy2` -/
  | andV (x y : Reg)
  /-- `8xy3` -/
  | xorV (x y : Reg)
  /-- `8xy4` -/
  | addV (x y : Reg)
  /-- `8xy5` -/
  | sub (x y : Reg)
  /-- `8xy6` -/
  | shr (x y : Reg)
  /-- `8xy7` -/
  | subn (x y : Reg)
  /-- `8xyE` -/
  | shl (x y : Reg)
  /-- `9xy0` -/
  | sneV (x y : Reg)
  /-- `Annn` -/
  | ldI (nnn : Addr)
  /-- `Bnnn` -/
  | jpV0 (nnn : Addr)
  /-- `Cxkk` -/
  | rnd (x : Reg) (kk : Byte)
  /-- `Dxyn` -/
  | drw (x y : Reg) (n : Nibble)
  /-- `Ex9E` -/
  | skp (x : Reg)
  /-- `ExA1` -/
  | sknp (x : Reg)
  /-- `Fx07` -/
  | ldVDT (x : Reg)
  /-- `Fx0A` -/
  | ldVK (x : Reg)
  /-- `Fx15` -/
  | ldDTV (x : Reg)
  /-- `Fx18` -/
  | ldSTV (x : Reg)
  /-- `Fx1E` -/
  | addIV (x : Reg)
  /-- `Fx29` -/
  | ldF (x : Reg)
  /-- `Fx33` -/
  | ldB (x : Reg)
  /-- `Fx55` -/
  | stRegs (x : Reg)
  /-- `Fx65` -/
  | ldRegs (x : Reg)
  deriving DecidableEq, Repr

end Sys2Proof
end

