-- ==== Sys2Proof/WellFormed.lean ====
section
/-! DEFINITION. Which terms of `Instr` stand for an opcode. Every field has the width the encoding gives it, so the only
terms without an opcode are the two SYS terms whose words are CLS and RET (30_encoding.md R74: "those rows take precedence
over row 1"). -/

namespace Sys2Proof

/-- A term is well formed when it is not a SYS whose word is `00E0` or `00EE` (R74, R75). -/
def Instr.wellFormed : Instr → Bool
  | .sys nnn => nnn != 0x0E0#12 && nnn != 0x0EE#12
  | .cls | .ret | .jp _ | .call _ | .seK _ _ | .sneK _ _ | .seV _ _ | .ldK _ _ | .addK _ _ | .ldV _ _ | .orV _ _
  | .andV _ _ | .xorV _ _ | .addV _ _ | .sub _ _ | .shr _ _ | .subn _ _ | .shl _ _ | .sneV _ _ | .ldI _ | .jpV0 _
  | .rnd _ _ | .drw _ _ _ | .skp _ | .sknp _ | .ldVDT _ | .ldVK _ | .ldDTV _ | .ldSTV _ | .addIV _ | .ldF _ | .ldB _
  | .stRegs _ | .ldRegs _ => true

end Sys2Proof
end

