-- ==== Sys2Proof/Decode.lean ====
section
/-! DEFINITION. The decoder (30_encoding.md R75), total on every word and on every list of bytes and rejecting by name,
the encoder written from the formats of R71 and the patterns of R74, and the match/mask table of R74. -/

namespace Sys2Proof

/-- Why bytes are no instruction. -/
inductive DecodeError where
  /-- The word matches no row of the opcode map: R75, R76 raise `UnsupportedOpcode(op)`. -/
  | unsupportedOpcode (op : Word)
  /-- Fewer than the 2 bytes that every instruction has (R70). -/
  | truncated (given : Nat)
  deriving DecidableEq, Repr

/-- `h = op[15:12]`, which selects the family (00_scope.md R9). -/
def fieldH (op : Word) : Nibble := op.extractLsb' 12 4

/-- `x = op[11:8]` (R9). -/
def fieldX (op : Word) : Reg := op.extractLsb' 8 4

/-- `y = op[7:4]` (R9). -/
def fieldY (op : Word) : Reg := op.extractLsb' 4 4

/-- `n = op[3:0]` (R9). -/
def fieldN (op : Word) : Nibble := op.extractLsb' 0 4

/-- `kk = op[7:0]` (R9). -/
def fieldKK (op : Word) : Byte := op.extractLsb' 0 8

/-- `nnn = op[11:0]` (R9). -/
def fieldNNN (op : Word) : Addr := op.extractLsb' 0 12

/-- `Decode(op)` of R75: classify by the high nibble, then by the low nibble or the low byte. -/
def decode (op : Word) : Except DecodeError Instr :=
  let x := fieldX op
  let y := fieldY op
  let n := fieldN op
  let kk := fieldKK op
  let nnn := fieldNNN op
  match fieldH op with
  | 0x0#4 => if op = 0x00E0#16 then .ok .cls else if op = 0x00EE#16 then .ok .ret else .ok (.sys nnn)
  | 0x1#4 => .ok (.jp nnn)
  | 0x2#4 => .ok (.call nnn)
  | 0x3#4 => .ok (.seK x kk)
  | 0x4#4 => .ok (.sneK x kk)
  | 0x5#4 => if n = 0x0#4 then .ok (.seV x y) else .error (.unsupportedOpcode op)
  | 0x6#4 => .ok (.ldK x kk)
  | 0x7#4 => .ok (.addK x kk)
  | 0x8#4 =>
    match n with
    | 0x0#4 => .ok (.ldV x y)
    | 0x1#4 => .ok (.orV x y)
    | 0x2#4 => .ok (.andV x y)
    | 0x3#4 => .ok (.xorV x y)
    | 0x4#4 => .ok (.addV x y)
    | 0x5#4 => .ok (.sub x y)
    | 0x6#4 => .ok (.shr x y)
    | 0x7#4 => .ok (.subn x y)
    | 0xE#4 => .ok (.shl x y)
    | _ => .error (.unsupportedOpcode op)
  | 0x9#4 => if n = 0x0#4 then .ok (.sneV x y) else .error (.unsupportedOpcode op)
  | 0xA#4 => .ok (.ldI nnn)
  | 0xB#4 => .ok (.jpV0 nnn)
  | 0xC#4 => .ok (.rnd x kk)
  | 0xD#4 => .ok (.drw x y n)
  | 0xE#4 =>
    match kk with
    | 0x9E#8 => .ok (.skp x)
    | 0xA1#8 => .ok (.sknp x)
    | _ => .error (.unsupportedOpcode op)
  | 0xF#4 =>
    match kk with
    | 0x07#8 => .ok (.ldVDT x)
    | 0x0A#8 => .ok (.ldVK x)
    | 0x15#8 => .ok (.ldDTV x)
    | 0x18#8 => .ok (.ldSTV x)
    | 0x1E#8 => .ok (.addIV x)
    | 0x29#8 => .ok (.ldF x)
    | 0x33#8 => .ok (.ldB x)
    | 0x55#8 => .ok (.stRegs x)
    | 0x65#8 => .ok (.ldRegs x)
    | _ => .error (.unsupportedOpcode op)
  | _ => .error (.unsupportedOpcode op)  -- no nibble is left: the sixteen cases above are all of them

/-- Format `NNN` of R71, from its fields. -/
def formNNN (h : Nibble) (nnn : Addr) : Word := h ++ nnn

/-- Formats `XKK` and `XS` of R71, from their fields; the sub-operation of `XS` stands where `kk` does. -/
def formXKK (h : Nibble) (x : Reg) (kk : Byte) : Word := h ++ x ++ kk

/-- Formats `XYN` and `XYS` of R71, from their fields; the sub-operation of `XYS` stands where `n` does. -/
def formXYN (h : Nibble) (x y : Reg) (n : Nibble) : Word := h ++ x ++ y ++ n

/-- The word of an instruction: the formats of R71 with the fixed bits of R74. -/
def encode : Instr → Word
  | .sys nnn => formNNN 0x0#4 nnn
  | .cls => 0x00E0#16
  | .ret => 0x00EE#16
  | .jp nnn => formNNN 0x1#4 nnn
  | .call nnn => formNNN 0x2#4 nnn
  | .seK x kk => formXKK 0x3#4 x kk
  | .sneK x kk => formXKK 0x4#4 x kk
  | .seV x y => formXYN 0x5#4 x y 0x0#4
  | .ldK x kk => formXKK 0x6#4 x kk
  | .addK x kk => formXKK 0x7#4 x kk
  | .ldV x y => formXYN 0x8#4 x y 0x0#4
  | .orV x y => formXYN 0x8#4 x y 0x1#4
  | .andV x y => formXYN 0x8#4 x y 0x2#4
  | .xorV x y => formXYN 0x8#4 x y 0x3#4
  | .addV x y => formXYN 0x8#4 x y 0x4#4
  | .sub x y => formXYN 0x8#4 x y 0x5#4
  | .shr x y => formXYN 0x8#4 x y 0x6#4
  | .subn x y => formXYN 0x8#4 x y 0x7#4
  | .shl x y => formXYN 0x8#4 x y 0xE#4
  | .sneV x y => formXYN 0x9#4 x y 0x0#4
  | .ldI nnn => formNNN 0xA#4 nnn
  | .jpV0 nnn => formNNN 0xB#4 nnn
  | .rnd x kk => formXKK 0xC#4 x kk
  | .drw x y n => formXYN 0xD#4 x y n
  | .skp x => formXKK 0xE#4 x 0x9E#8
  | .sknp x => formXKK 0xE#4 x 0xA1#8
  | .ldVDT x => formXKK 0xF#4 x 0x07#8
  | .ldVK x => formXKK 0xF#4 x 0x0A#8
  | .ldDTV x => formXKK 0xF#4 x 0x15#8
  | .ldSTV x => formXKK 0xF#4 x 0x18#8
  | .addIV x => formXKK 0xF#4 x 0x1E#8
  | .ldF x => formXKK 0xF#4 x 0x29#8
  | .ldB x => formXKK 0xF#4 x 0x33#8
  | .stRegs x => formXKK 0xF#4 x 0x55#8
  | .ldRegs x => formXKK 0xF#4 x 0x65#8

/-- A word from the byte at the lower address and the byte after it: the first is the high byte (20_memory.md R55). -/
def wordOfBytes (hi lo : Byte) : Word := hi ++ lo

/-- The byte of a word that lies at the lower address (R55). -/
def highByte (w : Word) : Byte := w.extractLsb' 8 8

/-- The byte of a word that lies at the higher address (R55). -/
def lowByte (w : Word) : Byte := w.extractLsb' 0 8

/-- The two bytes of an instruction in the order they lie in memory and in a program image (R55, R82). -/
def encodeBytes (i : Instr) : List Byte := [highByte (encode i), lowByte (encode i)]

/-- The first instruction of a list of bytes and what follows it; a decoder consumes exactly 2 bytes (R70). -/
def decodeBytes : List Byte → Except DecodeError (Instr × List Byte)
  | hi :: lo :: rest =>
    match decode (wordOfBytes hi lo) with
    | .ok i => .ok (i, rest)
    | .error e => .error e
  | short => .error (.truncated short.length)

/-- The instruction the decoder reads from a row of spec/opcode_table.json whose `nbits` bits are `w`, numbered as the
table numbers them; every bit above `nbits` is 0 (log 16). -/
def decodeTableWord (nbits w : Nat) : Option Instr :=
  let op : Word := BitVec.ofNat 16 (w % 2 ^ nbits)
  match decodeBytes [highByte op, lowByte op] with
  | .ok (i, _) => some i
  | .error _ => none

/-- The match and mask columns of the instruction's row in R74: its word matches when `op &&& mask = match`. -/
def tableRow : Instr → Word × Word
  | .sys _ => (0x0000#16, 0xF000#16)
  | .cls => (0x00E0#16, 0xFFFF#16)
  | .ret => (0x00EE#16, 0xFFFF#16)
  | .jp _ => (0x1000#16, 0xF000#16)
  | .call _ => (0x2000#16, 0xF000#16)
  | .seK _ _ => (0x3000#16, 0xF000#16)
  | .sneK _ _ => (0x4000#16, 0xF000#16)
  | .seV _ _ => (0x5000#16, 0xF00F#16)
  | .ldK _ _ => (0x6000#16, 0xF000#16)
  | .addK _ _ => (0x7000#16, 0xF000#16)
  | .ldV _ _ => (0x8000#16, 0xF00F#16)
  | .orV _ _ => (0x8001#16, 0xF00F#16)
  | .andV _ _ => (0x8002#16, 0xF00F#16)
  | .xorV _ _ => (0x8003#16, 0xF00F#16)
  | .addV _ _ => (0x8004#16, 0xF00F#16)
  | .sub _ _ => (0x8005#16, 0xF00F#16)
  | .shr _ _ => (0x8006#16, 0xF00F#16)
  | .subn _ _ => (0x8007#16, 0xF00F#16)
  | .shl _ _ => (0x800E#16, 0xF00F#16)
  | .sneV _ _ => (0x9000#16, 0xF00F#16)
  | .ldI _ => (0xA000#16, 0xF000#16)
  | .jpV0 _ => (0xB000#16, 0xF000#16)
  | .rnd _ _ => (0xC000#16, 0xF000#16)
  | .drw _ _ _ => (0xD000#16, 0xF000#16)
  | .skp _ => (0xE09E#16, 0xF0FF#16)
  | .sknp _ => (0xE0A1#16, 0xF0FF#16)
  | .ldVDT _ => (0xF007#16, 0xF0FF#16)
  | .ldVK _ => (0xF00A#16, 0xF0FF#16)
  | .ldDTV _ => (0xF015#16, 0xF0FF#16)
  | .ldSTV _ => (0xF018#16, 0xF0FF#16)
  | .addIV _ => (0xF01E#16, 0xF0FF#16)
  | .ldF _ => (0xF029#16, 0xF0FF#16)
  | .ldB _ => (0xF033#16, 0xF0FF#16)
  | .stRegs _ => (0xF055#16, 0xF0FF#16)
  | .ldRegs _ => (0xF065#16, 0xF0FF#16)

end Sys2Proof
end

