-- ==== Sys2Proof/Config.lean ====
section
/-! DEFINITION. The implementation parameters of 00_scope.md R5, each fixed for this hardware, and the one input the
spec leaves open: the random bytes of R6. -/

namespace Sys2Proof.Config

/-- `MEM_SIZE`: 4096 cells, so the legal addresses are 0x000-0xFFF (R5, R21). -/
abbrev memSize : Nat := 0x1000

/-- `PROG_BASE`: where an image is loaded and where execution starts (R5, R51). -/
abbrev progBase : Nat := 0x200

/-- `FONT_BASE`: the address of glyph 0 (R5, R51; the spec's decision D18). -/
abbrev fontBase : Nat := 0x050

/-- `GLYPH_H`: bytes per glyph (R5, R152). -/
abbrev glyphHeight : Nat := 5

/-- `STACK_DEPTH`: return addresses the stack holds (R5, R27). -/
abbrev stackDepth : Nat := 16

/-- `DISP_W`: pixels in a row of the display (R5, R31). -/
abbrev dispWidth : Nat := 64

/-- `DISP_H`: rows of the display (R5, R31). -/
abbrev dispHeight : Nat := 32

/-- The `k`-th byte drawn from the `RND` of a core, by the number of that source. A FREE VALUE (log 6): it has no body, so
nothing can be proved of any draw, no two draws are related, and a claim holds for every draw (R6; the spec's decision
D15). -/
opaque randomByte (source k : Nat) : Byte

end Sys2Proof.Config
end

