-- ==== Sys2Proof/Machine/State.lean ====
section
/-! DEFINITION. The state tuple of 10_state.md R20 as plain data, the fault kinds of 60_exceptions.md R210, and the state
after reset (70_reset_and_hazards.md R250). -/

namespace Sys2Proof.Machine

/-- The five fault kinds of R210. A step that raises one answers a NEXT state in which the fault is latched in `flt`
(R213, R214; log 2), so no step answers `Host.Outcome.fault`; `loadImage` answers it with `imageTooLarge` (R252). -/
inductive Fault where
  /-- Raised by decode for a word of R76 and by every `0nnn`. Safe: where the block went on, the model stops. -/
  | unsupportedOpcode
  /-- Raised by `2nnn` at SP = 16. Safe, and as the spec says (R102). -/
  | stackOverflow
  /-- Raised by `00EE` at SP = 0. Safe, and as the spec says (R101). -/
  | stackUnderflow
  /-- Raised by a fetch at pc > 0xFFE and by `Dxyn`, `Fx33`, `Fx55`, `Fx65` whose range passes 0xFFF. Safe, and as the
  spec says (R52). -/
  | outOfBoundsAddress
  /-- The result of a `loadImage` that does not fit; never latched, no state changes (R252). Safe. -/
  | imageTooLarge
  deriving DecidableEq, Repr

/-- The one refusal. -/
inductive Refusal where
  /-- Raised by an arm of `exec` whose instruction has no meaning yet; there is none. Safe: nothing can be proved of it. -/
  | notModelled (mnemonic : String)
  deriving DecidableEq, Repr

/-- What the latch records of a fault (R33): `fop` is none when the fetch itself faulted. -/
structure FaultRecord where
  kind : Fault
  fpc : Word
  fop : Option Word
  faddr : Word
  deriving DecidableEq, Repr

/-- `M`: the cells that differ from what reset left, addresses strictly rising (log 7; Machine/Memory.lean). -/
abbrev Memory := List Host.Cell

/-- `FB`: 32 rows of 64 pixels; bit c of row r is FB[r][c] (R31; log 9). -/
abbrev FrameBuffer := Vector (BitVec 64) 32

/-- The state tuple of R20; every element but `source` and `draws` is the spec's. -/
structure State where
  /-- `M` (R21) -/
  mem : Memory
  /-- `V`, V0 to VF (R22, R23) -/
  v : Vector Byte 16
  /-- `I`, sixteen bits, never masked (R24) -/
  i : Word
  /-- `PC`, sixteen bits, never masked (R25) -/
  pc : Word
  /-- `SP`, 0..16, the number of return addresses on the stack (R26; log 8) -/
  sp : Fin 17
  /-- `S`, storage of its own, not in memory (R27) -/
  stack : Vector Word 16
  /-- `DT` (R28) -/
  dt : Byte
  /-- `ST` (R29) -/
  st : Byte
  /-- `KEY`, true while the key is pressed (R30) -/
  key : Vector Bool 16
  /-- `FB` (R31) -/
  fb : FrameBuffer
  /-- `REDRAW` (R32) -/
  redraw : Bool
  /-- `FLT` (R33) -/
  flt : Option FaultRecord
  /-- THE MODEL'S OWN (log 6): the number of the core's own `RND`, so that no two cores share one (R231). No instruction and
  no transaction changes it, and only `State.drawByte` reads it. -/
  source : Nat
  /-- THE MODEL'S OWN (log 6): how many bytes have been drawn from `RND`. -/
  draws : Nat
  deriving DecidableEq, Repr

/-- The state after reset (R250). Memory lists nothing: an unlisted address reads as what reset puts there (R251). -/
def State.reset : State where
  mem := []
  v := Vector.replicate 16 0x00#8
  i := 0x0000#16
  pc := 0x0200#16
  sp := 0
  stack := Vector.replicate 16 0x0000#16
  dt := 0
  st := 0
  key := Vector.replicate 16 false
  fb := Vector.replicate 32 0#64
  redraw := false
  flt := none
  source := 0
  draws := 0

/-- The state in which a core whose `RND` has this number is constructed: "Construction and `reset` give the same state"
(R250). -/
def State.construct (source : Nat) : State := { State.reset with source := source }

end Sys2Proof.Machine
end

