-- ==== Sys2Proof/Machine/Memory.lean ====
section
/-! DEFINITION. The byte memory `M`: what reset leaves in it, the canonical form, reading and writing (20_memory.md
R50-R62; 70_reset_and_hazards.md R250, R251). Byte order is fixed here and in Decode.lean alone. -/

namespace Sys2Proof.Machine

/-- The sixteen glyphs of R251, five bytes each, digit 0 first. -/
def fontBytes : List Byte :=
  [0xF0, 0x90, 0x90, 0x90, 0xF0] ++ [0x20, 0x60, 0x20, 0x20, 0x70] ++ [0xF0, 0x10, 0xF0, 0x80, 0xF0] ++
  [0xF0, 0x10, 0xF0, 0x10, 0xF0] ++ [0x90, 0x90, 0xF0, 0x10, 0x10] ++ [0xF0, 0x80, 0xF0, 0x10, 0xF0] ++
  [0xF0, 0x80, 0xF0, 0x90, 0xF0] ++ [0xF0, 0x10, 0x20, 0x40, 0x40] ++ [0xF0, 0x90, 0xF0, 0x90, 0xF0] ++
  [0xF0, 0x90, 0xF0, 0x10, 0xF0] ++ [0xF0, 0x90, 0xF0, 0x90, 0x90] ++ [0xE0, 0x90, 0xE0, 0x90, 0xE0] ++
  [0xF0, 0x80, 0x80, 0x80, 0xF0] ++ [0xE0, 0x90, 0x90, 0x90, 0xE0] ++ [0xF0, 0x80, 0xF0, 0x80, 0xF0] ++
  [0xF0, 0x80, 0xF0, 0x80, 0x80]

/-- What reset leaves at an address, and so what an unlisted address reads as (R62, R250, R251). -/
def resetByte (a : Nat) : Byte :=
  if a < Config.fontBase then 0x00#8 else fontBytes.getD (a - Config.fontBase) 0x00#8

/-- The byte at an address. -/
def Memory.read : Memory → Nat → Byte
  | [], a => resetByte a
  | c :: m, a => if c.1 = a then c.2 else Memory.read m a

/-- The list without the cell at an address, which then reads as reset left it. -/
def Memory.remove (m : Memory) (a : Nat) : Memory := m.filter fun c => c.1 != a

/-- The list with a cell put before the first higher address. -/
def Memory.put : Memory → Nat → Byte → Memory
  | [], a, b => [(a, b)]
  | c :: m, a, b => if a < c.1 then (a, b) :: c :: m else c :: Memory.put m a b

/-- Store a byte, keeping the canonical form: a byte equal to what reset left is not listed. -/
def Memory.write (m : Memory) (a : Nat) (b : Byte) : Memory :=
  if b = resetByte a then m.remove a else (m.remove a).put a b

/-- Store bytes at ascending addresses (R53). -/
def Memory.writeBytes : Memory → Nat → List Byte → Memory
  | m, _, [] => m
  | m, a, b :: bs => Memory.writeBytes (m.write a b) (a + 1) bs

/-- The bytes at `n` ascending addresses (R53). -/
def Memory.readBytes (m : Memory) (a : Nat) : Nat → List Byte
  | 0 => []
  | n + 1 => m.read a :: Memory.readBytes m (a + 1) n

/-- The canonical form: addresses strictly rising, each of the 4096 of R21, no cell equal to what reset left there. -/
abbrev Memory.wf (m : Memory) : Prop :=
  m.Pairwise (fun c d => c.1 < d.1) ∧ ∀ c ∈ m, c.1 < Config.memSize ∧ c.2 ≠ resetByte c.1

end Sys2Proof.Machine
end

