-- ==== Sys2Proof/Machine/Ops.lean ====
section
/-! DEFINITION. The named operations over the state that the meanings share: registers, the program counter, the bounds
check, the stack, and raising a fault (00_scope.md R8; 60_exceptions.md R213-R215). There is no return from a fault: no
instruction and no transaction but `reset` clears the latch (R215, R219). -/

namespace Sys2Proof.Machine

/-- How a meaning ends. -/
abbrev Result := Host.Outcome State Fault Refusal

/-- `V[x]` (R22): no register is hard-wired. -/
def State.reg (s : State) (x : Reg) : Byte := s.v[x.toNat]'(by have := x.isLt; omega)

/-- `V[x] <- b` (R22). -/
def State.setReg (s : State) (x : Reg) (b : Byte) : State :=
  { s with v := s.v.set x.toNat b (by have := x.isLt; omega) }

/-- `I <- a` (R24). -/
def State.setI (s : State) (a : Word) : State := { s with i := a }

/-- `PC <- a` (R25): the target is not checked here but at the next fetch (R78). -/
def State.setPc (s : State) (a : Word) : State := { s with pc := a }

/-- `PC <- pc + 2`, the default advance (R80). -/
def State.advance (s : State) : State := s.setPc (s.pc + 2#16)

/-- A skip: `PC <- pc + 4` when the condition holds, else `PC <- pc + 2` (R80, R104). -/
def State.skipIf (s : State) (c : Bool) : State := s.setPc (if c then s.pc + 4#16 else s.pc + 2#16)

/-- `M` replaced. -/
def State.setMem (s : State) (m : Memory) : State := { s with mem := m }

/-- `DT <- b` (R28). -/
def State.setDt (s : State) (b : Byte) : State := { s with dt := b }

/-- `ST <- b` (R29). -/
def State.setSt (s : State) (b : Byte) : State := { s with st := b }

/-- `FB` replaced and `REDRAW <- 1`, which go together in both instructions that mutate the display (R32). -/
def State.show (s : State) (fb : FrameBuffer) : State := { s with fb := fb, redraw := true }

/-- `KEY[k]` (R30). -/
def State.keyDown (s : State) (k : Nibble) : Bool := s.key[k.toNat]'(by have := k.isLt; omega)

/-- `CheckRange(a, len)` of R8: true when len = 0, or when the last byte lies at or below 0xFFF (R52). -/
def checkRange (a len : Nat) : Bool := len == 0 || decide (a + len - 1 ≤ 0xFFF)

/-- RAISING A FAULT, the one operation (R214): the latch takes the kind, the pc of the step, the opcode if the fetch
succeeded, and the address the fault names; nothing else changes (R213) and control goes nowhere. -/
def State.raise (s : State) (kind : Fault) (fop : Option Word) (faddr : Word) : Result :=
  .next { s with flt := some { kind := kind, fpc := s.pc, fop := fop, faddr := faddr } }

/-- An instruction raises a fault at execute: `fop` is its opcode, its own word (R214; log 5). -/
def State.raiseIn (s : State) (ins : Instr) (kind : Fault) (faddr : Word) : Result :=
  s.raise kind (some (encode ins)) faddr

/-- An instruction that touches `len` bytes from `I` checks the whole range before anything else and faults with
`faddr = I` (R52, R210, R213). -/
def State.checked (s : State) (ins : Instr) (len : Nat) (t : State) : Result :=
  if checkRange s.i.toNat len then .next t else s.raiseIn ins .outOfBoundsAddress s.i

/-- Push a return address: none when 16 are on the stack (R26, R102). -/
def State.push (s : State) (a : Word) : Option State :=
  if h : s.sp.val < 16 then
    some { s with stack := s.stack.set s.sp.val a, sp := ⟨s.sp.val + 1, by omega⟩ }
  else none

/-- Pop a return address: none when the stack is empty; the entry read is not cleared (R26, R27, R101). -/
def State.pop (s : State) : Option (Word × State) :=
  if h : s.sp.val = 0 then none
  else some (s.stack[s.sp.val - 1]'(by have := s.sp.isLt; omega),
    { s with sp := ⟨s.sp.val - 1, by have := s.sp.isLt; omega⟩ })

/-- `draw RND` (R6, R8): the next free byte, and the state in which it has been drawn (log 6). -/
def State.drawByte (s : State) : Byte × State := (Config.randomByte s.source s.draws, { s with draws := s.draws + 1 })

end Sys2Proof.Machine
end

