-- ==== Sys2Proof/Machine/Cycle.lean ====
section
/-! DEFINITION. The step cycle around `Execute` (30_encoding.md R77-R79; 60_exceptions.md R215, R216): the fault latch, the
fetch and its bound, the decode, then the instruction. Step.lean only calls this. -/

namespace Sys2Proof.Machine

/-- `Fetch(pc)`: two bytes, big-endian; none where pc > 0xFFE (R78, R55). -/
def State.fetch (s : State) : Option Word :=
  if checkRange s.pc.toNat 2 then
    some (wordOfBytes (s.mem.read s.pc.toNat) (s.mem.read (s.pc.toNat + 1)))
  else none

/-- `Step()` of R77 over the meaning of an instruction: a faulted core changes nothing (R215; log 3); a fetch that fails
records no opcode (R78, R214); a word that decodes to nothing faults before any change (R79). -/
def cycle (execute : Instr → State → Result) (s : State) : Result :=
  match s.flt with
  | some _ => .next s
  | none =>
    match s.fetch with
    | none => s.raise .outOfBoundsAddress none s.pc
    | some op =>
      match decode op with
      | .error _ => s.raise .unsupportedOpcode (some op) s.pc
      | .ok ins => execute ins s

/-- Where `placeInstruction` puts an instruction: at pc where a fetch there is possible, else at 0x200 (log 12). -/
def fetchablePc (s : State) : Word := if checkRange s.pc.toNat 2 then s.pc else 0x0200#16

/-- The state with a word stored where the next step fetches it, high byte first, so that the very next step runs it: the
pc and the latch change only where they would keep the core from fetching it (log 12). -/
def placeInstruction (s : State) (op : Word) : State :=
  { s with
    mem := s.mem.writeBytes (fetchablePc s).toNat [highByte op, lowByte op]
    pc := fetchablePc s
    flt := none }

end Sys2Proof.Machine
end

