-- ==== Sys2Proof/Machine/Operands.lean ====
section
/-! DEFINITION. The operand forms (30_encoding.md R72; the operand lines of 40_control.md to 44_keypad_timers.md): a
12-bit address widened, a key number, the glyph address, the decimal digits, the registers V0..Vx, and the pixel a sprite
bit falls on. A register operand is `State.reg`, an immediate byte or nibble is used as it is. -/

namespace Sys2Proof.Machine

/-- `zext_16(nnn)`: no immediate is sign-extended, scaled or shifted (R72). -/
def addrOperand (nnn : Addr) : Word := nnn.setWidth 16

/-- `zext_16(V[x])` (R108, R151, R152). -/
def wideReg (s : State) (x : Reg) : Word := (s.reg x).setWidth 16

/-- The key number in a register: its low nibble (R190). -/
def keyOperand (s : State) (x : Reg) : Nibble := (s.reg x).setWidth 4

/-- The address of the glyph of a digit, `0x050 + 5 * zext_16(V[x])`, the whole of Vx (R152). -/
def glyphAddress (s : State) (x : Reg) : Word :=
  BitVec.ofNat 16 (Config.fontBase + Config.glyphHeight * (s.reg x).toNat)

/-- Hundreds, tens and units (R153). -/
def decimalDigits (b : Byte) : List Byte :=
  [BitVec.ofNat 8 (b.toNat / 100), BitVec.ofNat 8 (b.toNat / 10 % 10), BitVec.ofNat 8 (b.toNat % 10)]

/-- V0..Vx, x + 1 registers (R154). -/
def regsUpTo (s : State) (x : Reg) : List Byte := s.v.toList.take (x.toNat + 1)

/-- `for k in 0 .. n-1: V[k] <- MemRead(a + k, 1)` (R155). -/
def loadRegs (m : Memory) (a : Nat) (v : Vector Byte 16) : Nat → Vector Byte 16
  | 0 => v
  | n + 1 => (loadRegs m a v n).setIfInBounds n (m.read (a + n))

/-- The row of sprite byte r: `(cy + r) mod 32` (R171; 90_conflicts.md C1). -/
def spriteRow (cy r : Nat) : Fin 32 := ⟨(cy + r) % Config.dispHeight, Nat.mod_lt _ (by decide)⟩

/-- The column of sprite bit c from the left: `(cx + c) mod 64` (R171). -/
def spriteCol (cx c : Nat) : Fin 64 := ⟨(cx + c) % Config.dispWidth, Nat.mod_lt _ (by decide)⟩

/-- The key numbers, lowest first. -/
def keyNumbers : List Nibble := [0, 1, 2, 3, 4, 5, 6, 7, 8, 9, 10, 11, 12, 13, 14, 15]

/-- `min { k | KEY[k] == 1 }`, none while no key is pressed (R192). -/
def lowestKeyDown (s : State) : Option Nibble := keyNumbers.find? s.keyDown

end Sys2Proof.Machine
end

