-- ==== Sys2Proof/Machine/Control.lean ====
section
/-! DEFINITION. Control transfer: SYS, RET, JP, CALL, the skips and JP V0 (40_control.md R100-R109). -/

namespace Sys2Proof.Machine

/-- `0nnn`: always `UnsupportedOpcode`, no state change (R100). -/
def execSys (nnn : Addr) (s : State) : Result := s.raiseIn (.sys nnn) .unsupportedOpcode s.pc

/-- `00EE`: pop into PC, with no further advance (R101). -/
def execRet (s : State) : Result :=
  match s.pop with
  | none => s.raiseIn .ret .stackUnderflow s.pc
  | some (a, t) => .next (t.setPc a)

/-- `1nnn` (R103). -/
def execJp (nnn : Addr) (s : State) : Result := .next (s.setPc (addrOperand nnn))

/-- `2nnn`: push the address after this instruction, then jump (R102). -/
def execCall (nnn : Addr) (s : State) : Result :=
  match s.push (s.pc + 2#16) with
  | none => s.raiseIn (.call nnn) .stackOverflow s.pc
  | some t => .next (t.setPc (addrOperand nnn))

/-- `3xkk` (R104). -/
def execSeK (x : Reg) (kk : Byte) (s : State) : Result := .next (s.skipIf (s.reg x == kk))

/-- `4xkk` (R105). -/
def execSneK (x : Reg) (kk : Byte) (s : State) : Result := .next (s.skipIf (s.reg x != kk))

/-- `5xy0` (R106). -/
def execSeV (x y : Reg) (s : State) : Result := .next (s.skipIf (s.reg x == s.reg y))

/-- `9xy0` (R107). -/
def execSneV (x y : Reg) (s : State) : Result := .next (s.skipIf (s.reg x != s.reg y))

/-- `Bnnn`: the offset is always V0 (R108). -/
def execJpV0 (nnn : Addr) (s : State) : Result := .next (s.setPc (addrOperand nnn + wideReg s 0x0#4))

end Sys2Proof.Machine
end

