-- ==== Sys2Proof/Machine/Flags.lean ====
section
/-! DEFINITION. The flag computations and the order of result and flag (41_register_alu.md R126-R130, R132, R133). The
only flag is VF; the collision flag of `Dxyn` is computed with the sprite in Display.lean. -/

namespace Sys2Proof.Machine

/-- A flag as the byte VF takes: 1 or 0 (R132). -/
def flagByte (c : Bool) : Byte := if c then 0x01#8 else 0x00#8

/-- Carry: the exact sum exceeds 255 (R126). -/
def carry (a b : Byte) : Bool := decide (255 < a.toNat + b.toNat)

/-- No borrow in `a - b`: a >= b (R127, R129). -/
def noBorrow (a b : Byte) : Bool := decide (b.toNat ≤ a.toNat)

/-- The bit a right shift by one shifts out (R128). -/
def lowBit (a : Byte) : Bool := a.getLsbD 0

/-- The bit a left shift by one shifts out (R130). -/
def highBit (a : Byte) : Bool := a.getLsbD 7

/-- Write the result to `V[x]`, then the flag to VF, so that with x = 0xF the flag stays (R133). -/
def State.setResultAndFlag (s : State) (x : Reg) (result : Byte) (flag : Bool) : State :=
  (s.setReg x result).setReg VF (flagByte flag)

end Sys2Proof.Machine
end

