-- ==== Sys2Proof/Machine/Display.lean ====
section
/-! DEFINITION. The display buffer, the sprite drawer and its collision detector (43_display.md R170-R174). -/

namespace Sys2Proof.Machine

/-- FB[row][col] (R31). -/
def FrameBuffer.pixel (fb : FrameBuffer) (row : Fin 32) (col : Fin 64) : Bool := fb[row.val].getLsbD col.val

/-- FB[row][col] <- FB[row][col] ^ 1 (R171). -/
def FrameBuffer.toggle (fb : FrameBuffer) (row : Fin 32) (col : Fin 64) : FrameBuffer :=
  fb.set row.val (fb[row.val] ^^^ BitVec.twoPow 64 col.val)

/-- Every pixel 0 (R170). -/
def FrameBuffer.blank : FrameBuffer := Vector.replicate 32 0#64

/-- The bits in row-major order: bit row * 64 + col (R223; log 9). -/
def FrameBuffer.bits (fb : FrameBuffer) : List Bool :=
  fb.toList.flatMap fun row => (List.range 64).map row.getLsbD

/-- The buffer under a sprite being drawn and the collision detector, the `hit` bit of R171 (R173). -/
abbrev Canvas := FrameBuffer × Bool

/-- One set sprite bit: an on-pixel is a collision, and the pixel is toggled (R171). -/
def Canvas.plot (d : Canvas) (row : Fin 32) (col : Fin 64) : Canvas :=
  (FrameBuffer.toggle d.1 row col, d.2 || FrameBuffer.pixel d.1 row col)

/-- One sprite byte: bit 7 - c goes to column cx + c, c = 0 .. n-1 (R171, R172). -/
def Canvas.plotByte (d : Canvas) (b : Byte) (cx : Nat) (row : Fin 32) : Nat → Canvas
  | 0 => d
  | n + 1 =>
    let d' := Canvas.plotByte d b cx row n
    if b.getLsbD (7 - n) then Canvas.plot d' row (spriteCol cx n) else d'

/-- The sprite's bytes, one a row, from row r on (R171). -/
def Canvas.plotRows (d : Canvas) (cx cy : Nat) : Nat → List Byte → Canvas
  | _, [] => d
  | r, b :: bs => Canvas.plotRows (Canvas.plotByte d b cx (spriteRow cy r) 8) cx cy (r + 1) bs

/-- Draw a sprite with its top left corner at column cx, row cy: the new buffer and whether any pixel collided (R171). -/
def drawSprite (fb : FrameBuffer) (cx cy : Nat) (sprite : List Byte) : Canvas :=
  Canvas.plotRows (fb, false) cx cy 0 sprite

/-- `00E0`: VF is not written (R170). -/
def execCls (s : State) : Result := .next (s.show FrameBuffer.blank).advance

/-- `Dxyn`: the coordinates are latched before VF is written; VF ends up 1 on a collision, else 0 (R171). -/
def execDrw (x y : Reg) (n : Nibble) (s : State) : Result :=
  let d := drawSprite s.fb (s.reg x).toNat (s.reg y).toNat (s.mem.readBytes s.i.toNat n.toNat)
  s.checked (.drw x y n) n.toNat ((s.show d.1).setReg VF (flagByte d.2)).advance

end Sys2Proof.Machine
end

