-- ==== Sys2Proof/Machine/IndexMemory.lean ====
section
/-! DEFINITION. The index register and the memory instructions (42_index_memory.md R150-R155). The only addressing mode is
M[I + k], and no instruction here but `Annn`, `Fx1E` and `Fx29` writes I. -/

namespace Sys2Proof.Machine

/-- `Annn` (R150). -/
def execLdI (nnn : Addr) (s : State) : Result := .next (s.setI (addrOperand nnn)).advance

/-- `Fx1E`: mod 2^16, VF not written (R151). -/
def execAddIV (x : Reg) (s : State) : Result := .next (s.setI (s.i + wideReg s x)).advance

/-- `Fx29` (R152). -/
def execLdF (x : Reg) (s : State) : Result := .next (s.setI (glyphAddress s x)).advance

/-- `Fx33`: three digits at I, I+1, I+2 (R153). -/
def execLdB (x : Reg) (s : State) : Result :=
  s.checked (.ldB x) 3 (s.setMem (s.mem.writeBytes s.i.toNat (decimalDigits (s.reg x)))).advance

/-- `Fx55`: V0..Vx to memory (R154). -/
def execStRegs (x : Reg) (s : State) : Result :=
  s.checked (.stRegs x) (x.toNat + 1) (s.setMem (s.mem.writeBytes s.i.toNat (regsUpTo s x))).advance

/-- `Fx65`: V0..Vx from memory (R155). -/
def execLdRegs (x : Reg) (s : State) : Result :=
  s.checked (.ldRegs x) (x.toNat + 1) { s with v := loadRegs s.mem s.i.toNat s.v (x.toNat + 1) }.advance

end Sys2Proof.Machine
end

