-- ==== Sys2Proof/Machine/KeypadTimers.lean ====
section
/-! DEFINITION. Keypad and timer instructions (44_keypad_timers.md R190-R195). -/

namespace Sys2Proof.Machine

/-- `Ex9E` (R190). -/
def execSkp (x : Reg) (s : State) : Result := .next (s.skipIf (s.keyDown (keyOperand s x)))

/-- `ExA1` (R191). -/
def execSknp (x : Reg) (s : State) : Result := .next (s.skipIf (!s.keyDown (keyOperand s x)))

/-- `Fx07` (R193). -/
def execLdVDT (x : Reg) (s : State) : Result := .next (s.setReg x s.dt).advance

/-- `Fx0A`: with no key pressed nothing changes and the instruction runs again at the next step (R192). -/
def execLdVK (x : Reg) (s : State) : Result :=
  match lowestKeyDown s with
  | none => .next s
  | some k => .next (s.setReg x (k.setWidth 8)).advance

/-- `Fx15` (R194). -/
def execLdDTV (x : Reg) (s : State) : Result := .next (s.setDt (s.reg x)).advance

/-- `Fx18` (R195). -/
def execLdSTV (x : Reg) (s : State) : Result := .next (s.setSt (s.reg x)).advance

end Sys2Proof.Machine
end

