-- ==== Sys2Proof/Machine/RegisterAlu.lean ====
section
/-! DEFINITION. Register loads, the 8xy_ family and the random byte (41_register_alu.md R120-R133). Operands are read from
the state before the step, so they are latched (R133). -/

namespace Sys2Proof.Machine

/-- `6xkk` (R120). -/
def execLdK (x : Reg) (kk : Byte) (s : State) : Result := .next (s.setReg x kk).advance

/-- `7xkk`: wraps silently, no flag (R121). -/
def execAddK (x : Reg) (kk : Byte) (s : State) : Result := .next (s.setReg x (s.reg x + kk)).advance

/-- `8xy0` (R122). -/
def execLdV (x y : Reg) (s : State) : Result := .next (s.setReg x (s.reg y)).advance

/-- `8xy1` (R123). -/
def execOrV (x y : Reg) (s : State) : Result := .next (s.setReg x (s.reg x ||| s.reg y)).advance

/-- `8xy2` (R124). -/
def execAndV (x y : Reg) (s : State) : Result := .next (s.setReg x (s.reg x &&& s.reg y)).advance

/-- `8xy3` (R125). -/
def execXorV (x y : Reg) (s : State) : Result := .next (s.setReg x (s.reg x ^^^ s.reg y)).advance

/-- `8xy4`: the carry goes to VF (R126). -/
def execAddV (x y : Reg) (s : State) : Result :=
  .next (s.setResultAndFlag x (s.reg x + s.reg y) (carry (s.reg x) (s.reg y))).advance

/-- `8xy5`: Vx - Vy, no-borrow to VF (R127). -/
def execSub (x y : Reg) (s : State) : Result :=
  .next (s.setResultAndFlag x (s.reg x - s.reg y) (noBorrow (s.reg x) (s.reg y))).advance

/-- `8xy6`: shifts Vx, whatever y is (R128, R73). -/
def execShr (x _y : Reg) (s : State) : Result :=
  .next (s.setResultAndFlag x (s.reg x >>> 1) (lowBit (s.reg x))).advance

/-- `8xy7`: Vy - Vx, no-borrow to VF (R129). -/
def execSubn (x y : Reg) (s : State) : Result :=
  .next (s.setResultAndFlag x (s.reg y - s.reg x) (noBorrow (s.reg y) (s.reg x))).advance

/-- `8xyE`: shifts Vx, whatever y is (R130, R73). -/
def execShl (x _y : Reg) (s : State) : Result :=
  .next (s.setResultAndFlag x (s.reg x <<< 1) (highBit (s.reg x))).advance

/-- `Cxkk`: a drawn byte AND kk (R131). -/
def execRnd (x : Reg) (kk : Byte) (s : State) : Result :=
  .next (s.drawByte.2.setReg x (s.drawByte.1 &&& kk)).advance

end Sys2Proof.Machine
end

