-- ==== Sys2Proof/Machine/Step.lean ====
section
/-! DEFINITION. The step: the cycle of Cycle.lean over the dispatch (30_encoding.md R77). -/

namespace Sys2Proof.Machine

/-- One `step()`: fetch, decode and execute of one instruction, atomic (R77). Its typed result, `Ok` or `Fault(kind)`, is
read from the latch of the next state: `stepResult` in Transactions.lean (log 2). -/
def step (s : State) : Host.Outcome State Fault Refusal := cycle exec s

/-- The state with the instruction of a table word stored where the next step fetches it (log 11, log 12). -/
def State.withFetchWord (s : State) (nbits w : Nat) : State :=
  placeInstruction s (BitVec.ofNat 16 (w % 2 ^ nbits))

end Sys2Proof.Machine
end

