-- ==== Sys2Proof/Machine/Transactions.lean ====
section
/-! DEFINITION. The host's transactions, each one atomic state transition (60_exceptions.md R220-R230;
70_reset_and_hazards.md R250, R252). A run is any finite or endless sequence of them (R230; log 13). -/

namespace Sys2Proof.Machine

/-- The numeric codes of R210 (the spec's decision D24). -/
def Fault.code : Fault → Nat
  | .unsupportedOpcode => 1
  | .stackOverflow => 2
  | .stackUnderflow => 3
  | .outOfBoundsAddress => 4
  | .imageTooLarge => 5

/-- The transactions of R226. The key index and the raw address have the widths R226 gives them, so a host that keeps its
duties (R235) can say nothing else. -/
inductive Transaction where
  /-- `reset` (R250) -/
  | reset
  /-- `loadImage(bytes)` (R252) -/
  | loadImage (bytes : List Byte)
  /-- `step()` (R77) -/
  | step
  /-- `tick60Hz()` (R220) -/
  | tick60Hz
  /-- `frameBuffer()` (R223) -/
  | frameBuffer
  /-- `consumesRedrawFlag()` (R222) -/
  | consumesRedrawFlag
  /-- `setKey(index, pressed)` (R225) -/
  | setKey (index : Nibble) (pressed : Bool)
  /-- `soundTimer()` (R224) -/
  | soundTimer
  /-- `memRead(a)` (R227) -/
  | memRead (a : Addr)
  /-- `memWrite(a, v)` (R227) -/
  | memWrite (a : Addr) (b : Byte)
  /-- `inspect()` (R229) -/
  | inspect
  deriving DecidableEq, Repr

/-- What a transaction returns to the host (the result column of R226). -/
inductive Response where
  /-- no result -/
  | none
  /-- `Ok` of `step` and `loadImage` (R211) -/
  | ok
  /-- `Fault(kind)` of `step`, or `ImageTooLarge` of `loadImage` (R211) -/
  | fault (kind : Fault)
  /-- the 2048 bits of `frameBuffer` (R223) -/
  | pixels (bits : List Bool)
  /-- the bit of `consumesRedrawFlag` (R222) -/
  | flag (b : Bool)
  /-- the byte of `soundTimer` and `memRead` (R224, R227) -/
  | byte (b : Byte)
  /-- the whole state tuple of `inspect` (R229; log 15) -/
  | state (s : State)
  deriving DecidableEq, Repr

/-- The typed result of a step, read from the latch of the state it left: `Fault(FLT.kind)` or `Ok` (R77, R214, R215). -/
def stepResult (s : State) : Response :=
  match s.flt with
  | some r => .fault r.kind
  | none => .ok

/-- `reset`: every element of the tuple in its reset state (R250). The core keeps its own `RND`, and the counter of draws goes on, so that bytes
drawn after a reset are unrelated to those before it (R6; log 6). -/
def resetTransaction (s : State) : State := { State.reset with source := s.source, draws := s.draws }

/-- `LoadImage(bytes)`: the size is checked before any byte is copied; FLT does not change (R252; log 14). -/
def loadImage (bytes : List Byte) (s : State) : Host.Outcome State Fault Refusal :=
  if bytes.length + Config.progBase > Config.memSize then .fault .imageTooLarge
  else .next (s.setMem (s.mem.writeBytes Config.progBase bytes))

/-- `loadImage` as a transaction: `Ok`, or `ImageTooLarge` with no change (R211, R252). -/
def loadTransaction (bytes : List Byte) (s : State) : State × Response :=
  match loadImage bytes s with
  | .next t => (t, .ok)
  | .fault k => (s, .fault k)
  | .refused _ => (s, .none)  -- never: `loadImage` refuses nothing

/-- `step` as a transaction: the next state and the result its latch holds (R77, R211). -/
def stepTransaction (s : State) : State × Response :=
  match step s with
  | .next t => (t, stepResult t)
  | .fault k => (s, .fault k)  -- never: a step latches its fault in a next state
  | .refused _ => (s, .none)  -- never: every instruction has its meaning

/-- A timer at a tick: down by one while above zero (R220). -/
def countDown (b : Byte) : Byte := if b = 0 then 0 else b - 1#8

/-- `Tick()` (R220): it works while the core is faulted too (R215). -/
def tick60Hz (s : State) : State := { s with dt := countDown s.dt, st := countDown s.st }

/-- `setKey(index, pressed)` (R225). -/
def setKey (index : Nibble) (pressed : Bool) (s : State) : State :=
  { s with key := s.key.set index.toNat pressed (by have := index.isLt; omega) }

/-- What `consumesRedrawFlag()` leaves (R222). -/
def clearRedraw (s : State) : State := { s with redraw := false }

/-- One transaction: the state after it and what it returns (R226). -/
def transact : Transaction → State → State × Response
  | .reset, s => (resetTransaction s, .none)
  | .loadImage bytes, s => loadTransaction bytes s
  | .step, s => stepTransaction s
  | .tick60Hz, s => (Sys2Proof.Machine.tick60Hz s, .none)
  | .frameBuffer, s => (s, .pixels (FrameBuffer.bits s.fb))
  | .consumesRedrawFlag, s => (clearRedraw s, .flag s.redraw)
  | .setKey k b, s => (Sys2Proof.Machine.setKey k b s, .none)
  | .soundTimer, s => (s, .byte s.st)
  | .memRead a, s => (s, .byte (s.mem.read a.toNat))
  | .memWrite a b, s => (s.setMem (s.mem.write a.toNat b), .none)
  | .inspect, s => (s, .state s)

/-- The state after a finite run: a list of transactions in the host's order (R230). -/
def runTransactions : List Transaction → State → State
  | [], s => s
  | t :: ts, s => runTransactions ts (transact t s).1

/-- An endless run: the transaction at each position, in the host's order (R230). -/
abbrev EndlessRun := Nat → Transaction

/-- The first n transactions of an endless run. -/
def EndlessRun.beginning (ts : EndlessRun) : Nat → List Transaction
  | 0 => []
  | n + 1 => EndlessRun.beginning ts n ++ [ts n]

/-- The state of an endless run from s after its first n transactions (R230). -/
def EndlessRun.stateAt (ts : EndlessRun) (s : State) : Nat → State
  | 0 => s
  | n + 1 => (transact (ts n) (EndlessRun.stateAt ts s n)).1

/-- What the transaction at position n of an endless run from s returns to the host (R226, R230). -/
def EndlessRun.responseAt (ts : EndlessRun) (s : State) (n : Nat) : Response :=
  (transact (ts n) (EndlessRun.stateAt ts s n)).2

end Sys2Proof.Machine
end

