-- ==== Sys2Proof/Machine/Instances.lean ====
section
/-! DEFINITION. Several cores under one host, "each with its own state tuple, sharing nothing" (60_exceptions.md R231): the
ISA gives them no identifier, no interrupt and no memory in common, so a call to one is a transaction on its state alone. -/

namespace Sys2Proof.Machine

/-- Some cores, each by its state. -/
abbrev Cores := List State

/-- One transaction of the host on the core at a position. -/
structure Call where
  core : Nat
  transaction : Transaction
  deriving DecidableEq, Repr

/-- n cores as they are constructed, each with an `RND` of its own (R231, R250; log 6). -/
def Cores.construct (n : Nat) : Cores := (List.range n).map State.construct

/-- One call: the transaction on its core; a position at which there is no core stands for none (log 17). -/
def Cores.call (c : Call) (cores : Cores) : Cores := cores.modify c.core fun s => (transact c.transaction s).1

/-- The cores after a list of calls, in the host's order (R230). -/
def Cores.run : List Call → Cores → Cores
  | [], cores => cores
  | c :: calls, cores => Cores.run calls (Cores.call c cores)

/-- The transactions among some calls that go to the core at position j. -/
def callsTo (j : Nat) : List Call → List Transaction
  | [] => []
  | c :: calls => if c.core = j then c.transaction :: callsTo j calls else callsTo j calls

/-- No two of the cores draw from one `RND` (R231; log 6). -/
def Cores.SourcesApart (cores : Cores) : Prop := (cores.map State.source).Nodup

end Sys2Proof.Machine
end

