-- ==== Sys2Proof/Safety.lean ====
section
/-! DEFINITION. The terms claims use: the invariant of the machine, the launch premises of 70_reset_and_hazards.md R258 and
the end of a run (60_exceptions.md R232). -/

namespace Sys2Proof.Machine

/-- What holds in the reset state and is kept by every step and every transaction. -/
structure StateInv (s : State) : Prop where
  /-- Memory is in its canonical form, within the 4096 cells (R21). -/
  mem_wf : s.mem.wf
  /-- "The largest PC a step can produce is 0x10FE" (R25). -/
  pc_le : s.pc.toNat ≤ 0x10FE
  /-- "A popped return address is at most 0x1000" (R25); stale entries too. -/
  stack_le : ∀ k : Fin 16, s.stack[k.val].toNat ≤ 0x1000
  /-- A fault is precise: PC still holds the address of the faulting instruction (R213). -/
  fault_pc : ∀ r, s.flt = some r → r.fpc = s.pc
  /-- `ImageTooLarge` is never latched (R210, R252). -/
  fault_kind : ∀ r, s.flt = some r → r.kind ≠ .imageTooLarge

/-- `NoFault` (R258). -/
abbrev NoFault (s : State) : Prop := s.flt = none

/-- `Launched(img)` (R258): `reset`, then a `loadImage(img)` that returned `Ok`; whatever was drawn before. -/
def Launched (img : List Byte) (s : State) : Prop := ∃ s₀, loadImage img (resetTransaction s₀) = .next s

/-- `NoHostWrite` (R258) of the transactions after launch. -/
def NoHostWrite (ts : List Transaction) : Prop := ∀ a b, Transaction.memWrite a b ∉ ts

/-- `NoReset` (R258): no `reset` and no further `loadImage` after launch. -/
def NoReset (ts : List Transaction) : Prop := Transaction.reset ∉ ts ∧ ∀ img, Transaction.loadImage img ∉ ts

/-- The transactions between consecutive steps, the first entry being those before the first step. -/
def betweenSteps : List Transaction → List (List Transaction)
  | [] => [[]]
  | t :: ts =>
    match t, betweenSteps ts with
    | .step, segments => [] :: segments
    | t, segment :: segments => (t :: segment) :: segments
    | _, [] => []  -- never: there is always a first segment

/-- `Ticks(t)` (R258; log 18): the `tick60Hz` calls between consecutive steps number as the list says. -/
def Ticks (t : List Nat) (ts : List Transaction) : Prop :=
  (betweenSteps ts).map (List.count .tick60Hz) = t

/-- The `setKey` calls among some transactions, in order. -/
def keyCalls : List Transaction → List (Nibble × Bool)
  | [] => []
  | .setKey k b :: ts => (k, b) :: keyCalls ts
  | _ :: ts => keyCalls ts

/-- `Keys(k)` (R258; log 18): the `setKey` calls between consecutive steps are those of the list. -/
def Keys (k : List (List (Nibble × Bool))) (ts : List Transaction) : Prop := (betweenSteps ts).map keyCalls = k

/-- `NoHostWrite` (R258) of an endless run: of all its beginnings. -/
def EndlessRun.NoHostWrite (ts : EndlessRun) : Prop := ∀ n, Machine.NoHostWrite (EndlessRun.beginning ts n)

/-- `NoReset` (R258) of an endless run: of all its beginnings. -/
def EndlessRun.NoReset (ts : EndlessRun) : Prop := ∀ n, Machine.NoReset (EndlessRun.beginning ts n)

/-- What lies between steps, gap by gap, of an endless run: each gap that a step has closed counts as the sequence says,
gap 0 being the one before the first step (R258; log 18). -/
def EndlessRun.Gaps {α : Type} (count : List Transaction → α) (r : Nat → α) (ts : EndlessRun) : Prop :=
  ∀ n k, k + 1 < (betweenSteps (EndlessRun.beginning ts n)).length →
    ((betweenSteps (EndlessRun.beginning ts n)).map count)[k]? = some (r k)

/-- `Ticks(t)` (R258; log 18) of an endless run. -/
def EndlessRun.Ticks (t : Nat → Nat) (ts : EndlessRun) : Prop := EndlessRun.Gaps (List.count .tick60Hz) t ts

/-- `Keys(k)` (R258; log 18) of an endless run. -/
def EndlessRun.Keys (k : Nat → List (Nibble × Bool)) (ts : EndlessRun) : Prop := EndlessRun.Gaps keyCalls k ts

/-- `Draws(r)` (R258): the bytes that successive `Cxkk` steps draw from this state on are the sequence r. -/
def Draws (r : Nat → Byte) (s : State) : Prop := ∀ k, Config.randomByte s.source (s.draws + k) = r k

/-- A run completes at A (R232): PC = A, no fault, and the word at A is `1nnn` with nnn = A. -/
def CompletesAt (a : Addr) (s : State) : Prop :=
  s.pc = a.setWidth 16 ∧ s.flt = none ∧ s.fetch = some (encode (.jp a))

/-- The next instruction the core runs: the word at pc can be fetched and decodes to it (R77). -/
def NextInstr (s : State) (i : Instr) : Prop := ∃ op, s.fetch = some op ∧ decode op = .ok i

/-- The step from a state raises this kind of fault: it latches it (R214). -/
def StepRaises (k : Fault) (s : State) : Prop := ∃ t r, step s = .next t ∧ t.flt = some r ∧ r.kind = k

/-- A sprite of n bytes at I, its top left corner at column cx and row cy, has a set bit that falls on (row, col): bit
7 - c of byte r falls on column (cx + c) mod 64 and row (cy + r) mod 32 (R171). -/
def SpriteBitOn (s : State) (cx cy n : Nat) (row : Fin 32) (col : Fin 64) : Prop :=
  ∃ r < n, ∃ c < 8, (s.mem.read (s.i.toNat + r)).getLsbD (7 - c) = true ∧
    row.val = (cy + r) % 32 ∧ col.val = (cx + c) % 64

/-- Two states that differ at most in what no instruction reads: ST, REDRAW and the stack entries at SP and above (R29,
R32, R35). They are of one core and their counts of draws agree, so both draw the same bytes from here on (log 6). -/
def SameButUnread (s t : State) : Prop :=
  t = { s with st := t.st, redraw := t.redraw, stack := t.stack } ∧
    ∀ k : Fin 16, k.val < s.sp.val → t.stack[k.val] = s.stack[k.val]

/-- `V[x] := b`, `PC := pc + 2`, and NOTHING ELSE: every other register, and every other element of the state. -/
def WritesReg (s t : State) (x : Reg) (b : Byte) : Prop :=
  t = { s with v := t.v, pc := s.pc + 2#16 } ∧ t.reg x = b ∧ ∀ z, z ≠ x → t.reg z = s.reg z

/-- `V[x] := b`, then `V[0xF] := flag` (so that with x = 0xF the flag stays), `PC := pc + 2`, and NOTHING ELSE. -/
def WritesRegAndFlag (s t : State) (x : Reg) (b : Byte) (flag : Nat) : Prop :=
  t = { s with v := t.v, pc := s.pc + 2#16 } ∧ (t.reg VF).toNat = flag ∧ (x ≠ VF → t.reg x = b) ∧
    ∀ z, z ≠ x → z ≠ VF → t.reg z = s.reg z

/-- The registers an instruction can write: its destination x, VF as its flag, or V0..Vx (R22, R23). -/
def MayWriteReg (i : Instr) (z : Reg) : Prop :=
  match i with
  | .ldK x _ | .addK x _ | .rnd x _ | .ldV x _ | .orV x _ | .andV x _ | .xorV x _ | .ldVDT x | .ldVK x => z = x
  | .addV x _ | .sub x _ | .shr x _ | .subn x _ | .shl x _ => z = x ∨ z = VF
  | .drw _ _ _ => z = VF
  | .ldRegs x => z.toNat ≤ x.toNat
  | .sys _ | .cls | .ret | .jp _ | .call _ | .seK _ _ | .sneK _ _ | .seV _ _ | .sneV _ _ | .ldI _ | .jpV0 _ | .skp _
  | .sknp _ | .ldDTV _ | .ldSTV _ | .addIV _ | .ldF _ | .ldB _ | .stRegs _ => False

/-- The instructions that set PC to pc + 4 when they skip (R25, R80). -/
def IsSkip (i : Instr) : Prop :=
  (∃ x kk, i = .seK x kk ∨ i = .sneK x kk) ∨ (∃ x y, i = .seV x y ∨ i = .sneV x y) ∨ ∃ x, i = .skp x ∨ i = .sknp x

/-- The instructions that set PC outright: `1nnn`, `2nnn`, `00EE` and `Bnnn` (R25). -/
def IsJump (i : Instr) : Prop := i = .ret ∨ ∃ nnn, i = .jp nnn ∨ i = .call nnn ∨ i = .jpV0 nnn

/-- A run faults (R232). -/
def RunFaults (s : State) : Prop := s.flt ≠ none

/-- Every other run stays open (R232). -/
def RunOpen (s : State) : Prop := ¬ RunFaults s ∧ ∀ a, ¬ CompletesAt a s

end Sys2Proof.Machine
end

