-- ==== Sys2Proof/Certificates/Slice0/Obligations.lean ====
section
/-! DEFINITION. The statements. In every one, `t = { s with … }` says that each element of the state that is not named there
is unchanged: that is the frame. The arithmetic is on exact numbers, as 00_scope.md R7 has it. -/

open Sys2Proof Sys2Proof.Machine

/-! Reset and the invariant -/

/-- R250 with the font of R251. The font's bytes and base are the spec's decision D18, KEY and FLT its decisions D25 and
D1; the number of the core's RND and the counter of draws are the model's own and are not stated. -/
def Obligations.ResetLeavesEveryElementAtItsResetValue : Prop :=
  State.reset.pc = 0x200#16 ∧ State.reset.i = 0#16 ∧ State.reset.sp.val = 0 ∧ State.reset.dt = 0#8 ∧
  State.reset.st = 0#8 ∧ State.reset.redraw = false ∧ State.reset.flt = none ∧
  (∀ x : Reg, State.reset.reg x = 0#8) ∧ (∀ k : Fin 16, State.reset.stack[k.val] = 0#16) ∧
  (∀ k : Nibble, State.reset.keyDown k = false) ∧
  (∀ row col, FrameBuffer.pixel State.reset.fb row col = false) ∧
  (∀ a, a < 0x050 ∨ 0x09F < a → State.reset.mem.read a = 0x00#8) ∧
  State.reset.mem.readBytes 0x050 80 =
    [0xF0, 0x90, 0x90, 0x90, 0xF0, 0x20, 0x60, 0x20, 0x20, 0x70, 0xF0, 0x10, 0xF0, 0x80, 0xF0, 0xF0, 0x10, 0xF0, 0x10, 0xF0,
     0x90, 0x90, 0xF0, 0x10, 0x10, 0xF0, 0x80, 0xF0, 0x10, 0xF0, 0xF0, 0x80, 0xF0, 0x90, 0xF0, 0xF0, 0x10, 0x20, 0x40, 0x40] ++
    [0xF0, 0x90, 0xF0, 0x90, 0xF0, 0xF0, 0x90, 0xF0, 0x10, 0xF0, 0xF0, 0x90, 0xF0, 0x90, 0x90, 0xE0, 0x90, 0xE0, 0x90, 0xE0,
     0xF0, 0x80, 0x80, 0x80, 0xF0, 0xE0, 0x90, 0x90, 0x90, 0xE0, 0xF0, 0x80, 0xF0, 0x80, 0xF0, 0xF0, 0x80, 0xF0, 0x80, 0x80]

/-- The invariant holds right after reset (R250). -/
def Obligations.ResetStateMeetsTheInvariant : Prop := StateInv State.reset

/-- Memory keeps its canonical form within the 4096 cells (R21), PC stays at or below 0x10FE and no stack entry passes
0x1000 (R25), a latched fault names the pc the core still has (R213) and is never `ImageTooLarge` (R210). -/
def Obligations.EveryStepKeepsTheInvariant : Prop := ∀ s t, StateInv s → step s = .next t → StateInv t

/-- The same along every run, finite or endless: every sequence of host transactions, in any order (R230). -/
def Obligations.EveryRunOfTransactionsKeepsTheInvariant : Prop :=
  ∀ s, StateInv s →
    (∀ ts, StateInv (runTransactions ts s)) ∧ ∀ (ts : EndlessRun) n, StateInv (EndlessRun.stateAt ts s n)

/-- The canonical form (log 7): memories that read alike at all 4096 addresses are equal data. -/
def Obligations.CanonicalMemoriesThatReadAlikeAreEqual : Prop :=
  ∀ m m' : Memory, m.wf → m'.wf → (∀ a < 0x1000, m.read a = m'.read a) → m = m'

/-! Encoding and decoding -/

/-- Decoding the word of a well-formed instruction gives it back, with every operand (R71, R74, R75). -/
def Obligations.DecodeReadsBackEveryWellFormedInstruction : Prop :=
  ∀ i : Instr, i.wellFormed = true → decode (encode i) = .ok i

/-- A word that decodes is the word of the one instruction it decodes to, and that instruction is well formed: no word has
two readings. That it holds of the don't-care bits too, y of SHR and SHL and nnn of SYS, which by R73 do not change the
instruction, is the model's choice to keep them in the term (log 10). It is what makes the opcode a fault records the opcode
that was fetched (log 5). -/
def Obligations.EveryDecodedWordIsTheWordOfItsInstruction : Prop :=
  ∀ op i, decode op = .ok i → encode i = op ∧ i.wellFormed = true

/-- R76: which words decode to nothing, family by family, and which are SYS. That `5xyN` and `9xyN` with N not 0 are illegal
is the spec's decision D7. -/
def Obligations.IllegalWordsAreExactlyThoseOfTheFamilies : Prop :=
  ∀ op : Word,
    (∀ e, decode op = .error e ↔ e = .unsupportedOpcode op ∧
      ((op.toNat / 0x1000 = 0x5 ∧ op.toNat % 0x10 ≠ 0) ∨
       (op.toNat / 0x1000 = 0x8 ∧ op.toNat % 0x10 ∈ [0x8, 0x9, 0xA, 0xB, 0xC, 0xD, 0xF]) ∨
       (op.toNat / 0x1000 = 0x9 ∧ op.toNat % 0x10 ≠ 0) ∨
       (op.toNat / 0x1000 = 0xE ∧ op.toNat % 0x100 ∉ [0x9E, 0xA1]) ∨
       (op.toNat / 0x1000 = 0xF ∧ op.toNat % 0x100 ∉ [0x07, 0x0A, 0x15, 0x18, 0x1E, 0x29, 0x33, 0x55, 0x65]))) ∧
    (∀ nnn, decode op = .ok (.sys nnn) ↔ op.toNat = nnn.toNat ∧ op ≠ 0x00E0#16 ∧ op ≠ 0x00EE#16)

/-- Words written out from R71 and R74, at least one for each of the sixteen high nibbles that select a family (R9), with
the instruction each stands for. -/
def Obligations.WordsOfTheTableDecodeToTheirInstructions : Prop :=
  decode 0x00E0#16 = .ok .cls ∧ decode 0x00EE#16 = .ok .ret ∧ decode 0x0123#16 = .ok (.sys 0x123#12) ∧
  decode 0x1234#16 = .ok (.jp 0x234#12) ∧ decode 0x2210#16 = .ok (.call 0x210#12) ∧
  decode 0x3310#16 = .ok (.seK 0x3#4 0x10#8) ∧ decode 0x4310#16 = .ok (.sneK 0x3#4 0x10#8) ∧
  decode 0x5120#16 = .ok (.seV 0x1#4 0x2#4) ∧ decode 0x6A3E#16 = .ok (.ldK 0xA#4 0x3E#8) ∧
  decode 0x71FF#16 = .ok (.addK 0x1#4 0xFF#8) ∧ decode 0x8F14#16 = .ok (.addV 0xF#4 0x1#4) ∧
  decode 0x9120#16 = .ok (.sneV 0x1#4 0x2#4) ∧ decode 0xA300#16 = .ok (.ldI 0x300#12) ∧
  decode 0xB300#16 = .ok (.jpV0 0x300#12) ∧ decode 0xC5F0#16 = .ok (.rnd 0x5#4 0xF0#8) ∧
  decode 0xDAB5#16 = .ok (.drw 0xA#4 0xB#4 0x5#4) ∧ decode 0xE1A1#16 = .ok (.sknp 0x1#4) ∧
  decode 0xF265#16 = .ok (.ldRegs 0x2#4) ∧ decode 0x5121#16 = .error (.unsupportedOpcode 0x5121#16)

/-- R70: every instruction is 2 bytes, the decoder consumes exactly 2 bytes and leaves the rest, and needs them both. -/
def Obligations.EveryInstructionIsTwoBytes : Prop :=
  (∀ (i : Instr) (rest : List Byte), i.wellFormed = true →
    (encodeBytes i).length = 2 ∧ decodeBytes (encodeBytes i ++ rest) = .ok (i, rest)) ∧
  (∀ bytes i rest, decodeBytes bytes = .ok (i, rest) → bytes.length = rest.length + 2)

/-! The step cycle and faults -/

/-- R77, R78, R55: on a core that has not faulted, at a pc from 0 to 0xFFE (odd or even, R54), a step is the instruction
that the two bytes at pc, the first the high byte, decode to. Nothing is added around it. -/
def Obligations.StepRunsTheDecodedInstruction : Prop :=
  ∀ (s : State) (i : Instr), s.flt = none → s.pc.toNat ≤ 0xFFE →
    decode (BitVec.ofNat 16 (256 * (s.mem.read s.pc.toNat).toNat + (s.mem.read (s.pc.toNat + 1)).toNat)) = .ok i →
    step s = exec i s

/-- R78: a fetch above 0xFFE latches `OutOfBoundsAddress` with no opcode and pc as the address. The latch is the spec's
decision D1, where the bound is checked its decision D4, the latch in a next state the model's choice (log 2). -/
def Obligations.FetchAboveTheBoundLatchesTheFault : Prop :=
  ∀ s : State, s.flt = none → 0xFFE < s.pc.toNat →
    step s = .next { s with flt := some ⟨.outOfBoundsAddress, s.pc, none, s.pc⟩ }

/-- R79: an unsupported opcode at PC, one that decodes to nothing or a SYS, yields `UnsupportedOpcode` and leaves all else
unchanged: every register, memory, the stack and PC. That SYS is one is the spec's decision D6, the latch that records the
fault its decision D1, the latch in a next state the model's choice (log 2). -/
def Obligations.UnsupportedOpcodeChangesNothingElse : Prop :=
  ∀ s op, s.flt = none → s.fetch = some op → ((∃ e, decode op = .error e) ∨ ∃ nnn, decode op = .ok (.sys nnn)) →
    ∃ r, step s = .next { s with flt := some r } ∧
      transact .step s = ({ s with flt := some r }, .fault .unsupportedOpcode)

/-- R215 (the spec's decision D1; the same state as a next state: log 3): a faulted core returns the latched fault at every
step and changes nothing. -/
def Obligations.FaultedCoreStaysFaulted : Prop :=
  ∀ s r, s.flt = some r → step s = .next s ∧ transact .step s = (s, .fault r.kind)

/-- R213, R214 (the spec's decisions D1, D2; log 2): a step that faults changes the latch alone, whatever the instruction; the
record holds the pc of the step, the opcode if the fetch succeeded and else none, and as its address I for an instruction's
memory access and pc for everything else; and the step returns that fault. -/
def Obligations.FaultingStepChangesOnlyTheLatch : Prop :=
  ∀ s t r, s.flt = none → step s = .next t → t.flt = some r →
    t = { s with flt := some r } ∧ r.fpc = s.pc ∧ r.fop = s.fetch ∧
    r.faddr = (if r.kind = .outOfBoundsAddress ∧ r.fop ≠ none then s.i else s.pc) ∧
    transact .step s = (t, .fault r.kind)

/-- R210, R216: which steps of a core that has not faulted raise which fault; "No other condition faults". That SYS raises
one is the spec's decision D6; the latch in a next state is the model's choice (log 2). -/
def Obligations.StepsFaultExactlyWhenTheTaxonomySays : Prop :=
  ∀ s : State, s.flt = none →
    (StepRaises .unsupportedOpcode s ↔
      ∃ op, s.fetch = some op ∧ ((∃ e, decode op = .error e) ∨ ∃ nnn, decode op = .ok (.sys nnn))) ∧
    (StepRaises .stackOverflow s ↔ s.sp.val = 16 ∧ ∃ nnn, NextInstr s (.call nnn)) ∧
    (StepRaises .stackUnderflow s ↔ s.sp.val = 0 ∧ NextInstr s .ret) ∧
    (StepRaises .outOfBoundsAddress s ↔
      0xFFE < s.pc.toNat ∨
      (∃ x y n, NextInstr s (.drw x y n) ∧ 0 < n.toNat ∧ 0xFFF < s.i.toNat + n.toNat - 1) ∨
      (∃ x, NextInstr s (.ldB x) ∧ 0xFFF < s.i.toNat + 2) ∨
      (∃ x, (NextInstr s (.stRegs x) ∨ NextInstr s (.ldRegs x)) ∧ 0xFFF < s.i.toNat + x.toNat)) ∧
    ¬ StepRaises .imageTooLarge s

/-- Every step, in every state, ends in a next state, from which the host reads `Ok` or a fault (R211, R235): the model
neither stops nor refuses anywhere. That a fault is a next state is the model's choice (log 2). -/
def Obligations.EveryStepAnswersANextState : Prop :=
  ∀ s : State, ∃ t, step s = .next t ∧ (transact .step s = (t, .ok) ∨ ∃ k, transact .step s = (t, .fault k))

/-- R100 (the spec's decisions D6, D1; log 2, log 5): SYS is its fault, whatever nnn is; the record names its word and pc. -/
def Obligations.SysRaisesUnsupportedOpcode : Prop :=
  ∀ (nnn : Addr) (s : State), exec (.sys nnn) s =
    .next { s with flt := some ⟨.unsupportedOpcode, s.pc, some (BitVec.ofNat 16 nnn.toNat), s.pc⟩ }

/-! What the whole instruction set never does -/

/-- The writers of each element (R37 and the writer lists of R22-R33): an element that an instruction changed names the
instruction, for V register by register; PC goes by 2, by 4 in a skip, anywhere in a jump, and stays in a waiting `Fx0A` or
a fault (R25); keys are changed by none, and REDRAW is never cleared. (The last clause but one is of the model's own number of
the core's RND and counter of draws, log 6; the faults are the spec's decisions D1, D2.) -/
def Obligations.EachElementHasOnlyItsWriters : Prop :=
  ∀ i s t, exec i s = .next t →
    (∀ z, t.reg z ≠ s.reg z → MayWriteReg i z) ∧
    (t.pc = s.pc + 2#16 ∨ (t.pc = s.pc + 4#16 ∧ IsSkip i) ∨ IsJump i ∨ (t = s ∧ ∃ x, i = .ldVK x) ∨
      ∃ r, t = { s with flt := some r }) ∧
    t.key = s.key ∧
    (t.fb ≠ s.fb → i = .cls ∨ ∃ x y n, i = .drw x y n) ∧
    (t.redraw ≠ s.redraw → t.redraw = true ∧ (i = .cls ∨ ∃ x y n, i = .drw x y n)) ∧
    (t.dt ≠ s.dt → ∃ x, i = .ldDTV x) ∧
    (t.st ≠ s.st → ∃ x, i = .ldSTV x) ∧
    (t.i ≠ s.i → (∃ nnn, i = .ldI nnn) ∨ ∃ x, i = .addIV x ∨ i = .ldF x) ∧
    (t.sp ≠ s.sp → i = .ret ∨ ∃ nnn, i = .call nnn) ∧
    (t.stack ≠ s.stack → ∃ nnn, i = .call nnn) ∧
    (t.mem ≠ s.mem → ∃ x, i = .ldB x ∨ i = .stRegs x) ∧
    t.source = s.source ∧ (t.draws ≠ s.draws → ∃ x kk, i = .rnd x kk) ∧
    (t.flt ≠ s.flt → i = .ret ∨ (∃ nnn, i = .sys nnn ∨ i = .call nnn) ∨ (∃ x y n, i = .drw x y n) ∨
      ∃ x, i = .ldB x ∨ i = .stRegs x ∨ i = .ldRegs x)

/-- R23: the instructions that can change VF: the six that write it as a flag, and those that name it as a destination. -/
def Obligations.VFIsWrittenOnlyByItsWriters : Prop :=
  ∀ i s t, exec i s = .next t → t.reg VF ≠ s.reg VF →
    (∃ x y, i = .addV x y ∨ i = .sub x y ∨ i = .shr x y ∨ i = .subn x y ∨ i = .shl x y) ∨
    (∃ x y n, i = .drw x y n) ∨
    (∃ kk, i = .ldK VF kk ∨ i = .addK VF kk ∨ i = .rnd VF kk) ∨
    (∃ y, i = .ldV VF y ∨ i = .orV VF y ∨ i = .andV VF y ∨ i = .xorV VF y) ∨
    i = .ldVDT VF ∨ i = .ldVK VF ∨ i = .ldRegs VF

/-- R28-R30, R32, R256: a step alone never moves a timer but to what a timer instruction writes, never changes a key, and
never clears REDRAW. -/
def Obligations.StepsAloneNeverMoveTimersOrKeys : Prop :=
  ∀ s t, step s = .next t →
    t.key = s.key ∧ (s.redraw = true → t.redraw = true) ∧
    (t.dt = s.dt ∨ ∃ x, NextInstr s (.ldDTV x) ∧ t.dt = s.reg x) ∧
    (t.st = s.st ∨ ∃ x, NextInstr s (.ldSTV x) ∧ t.st = s.reg x)

/-- R29, R32, R35: no instruction reads ST, REDRAW or a stale stack entry: two states that differ in nothing else step to
states that differ in nothing else. The two states are of one core and have the same count of draws, so that both draw the same
byte at RND (the `Draws(r)` premise of R258; log 6): it says nothing about two cores, or two runs whose draws differ. -/
def Obligations.StepsNeverReadSoundRedrawOrStaleEntries : Prop :=
  ∀ s s' t, SameButUnread s s' → step s = .next t → ∃ t', step s' = .next t' ∧ SameButUnread t t'

/-! Control transfer -/

/-- R103: PC := nnn, and nothing else. -/
def Obligations.JumpSetsThePc : Prop :=
  ∀ (nnn : Addr) (s : State), ∃ t, exec (.jp nnn) s = .next t ∧ t = { s with pc := t.pc } ∧ t.pc.toNat = nnn.toNat

/-- R108 (from general knowledge; the spec's decision D13): PC := nnn + V0, with no wrap and no mask. -/
def Obligations.JumpWithOffsetAddsV0 : Prop :=
  ∀ (nnn : Addr) (s : State), ∃ t, exec (.jpV0 nnn) s = .next t ∧ t = { s with pc := t.pc } ∧
    t.pc.toNat = nnn.toNat + (s.reg 0x0#4).toNat

/-- R102: push the address after the instruction and jump; `StackOverflow` with 16 on the stack (the latch and nothing else:
the spec's decisions D1, D2; in a next state: log 2). -/
def Obligations.CallPushesAndJumps : Prop :=
  ∀ (nnn : Addr) (s : State),
    (s.sp.val < 16 → ∃ t, exec (.call nnn) s = .next t ∧ t = { s with stack := t.stack, sp := t.sp, pc := t.pc } ∧
      (∀ k : Fin 16, t.stack[k.val] = if k.val = s.sp.val then s.pc + 2#16 else s.stack[k.val]) ∧
      t.sp.val = s.sp.val + 1 ∧ t.pc.toNat = nnn.toNat) ∧
    (s.sp.val = 16 → ∃ r, exec (.call nnn) s = .next { s with flt := some r } ∧ r.kind = .stackOverflow ∧
      r.faddr = s.pc)

/-- R101 (no further advance: the spec's decision D20): PC := the top entry, which is not cleared; `StackUnderflow` with an
empty stack (the latch and nothing else: its decisions D1, D2; in a next state: log 2). -/
def Obligations.ReturnPopsIntoThePc : Prop :=
  ∀ s : State,
    (∀ h : s.sp.val ≠ 0, ∃ t, exec .ret s = .next t ∧ t = { s with sp := t.sp, pc := t.pc } ∧
      t.sp.val = s.sp.val - 1 ∧ t.pc = s.stack[s.sp.val - 1]'(by have := s.sp.isLt; omega)) ∧
    (s.sp.val = 0 → ∃ r, exec .ret s = .next { s with flt := some r } ∧ r.kind = .stackUnderflow ∧ r.faddr = s.pc)

/-- Calls and returns nest (the source's "LIFO order"; D20): from any state with the stack a call left, a return goes to
the address after the call and leaves the stack pointer and the entries below as they were before the call. -/
def Obligations.ReturnUndoesItsCall : Prop :=
  ∀ (nnn : Addr) (s t u : State), s.sp.val < 16 → exec (.call nnn) s = .next t → u.stack = t.stack → u.sp = t.sp →
    ∃ w, exec .ret u = .next w ∧ w.pc = s.pc + 2#16 ∧ w.sp = s.sp ∧
      ∀ k : Fin 16, k.val < s.sp.val → w.stack[k.val] = s.stack[k.val]

/-- R104, R105: the skips on an immediate change PC alone: by 4 when they skip, else by 2. -/
def Obligations.SkipsOnAnImmediate : Prop :=
  ∀ (x : Reg) (kk : Byte) (s : State),
    exec (.seK x kk) s = .next { s with pc := if s.reg x = kk then s.pc + 4#16 else s.pc + 2#16 } ∧
    exec (.sneK x kk) s = .next { s with pc := if s.reg x ≠ kk then s.pc + 4#16 else s.pc + 2#16 }

/-- R106, R107 (from general knowledge): the skips on two registers. -/
def Obligations.SkipsOnTwoRegisters : Prop :=
  ∀ (x y : Reg) (s : State),
    exec (.seV x y) s = .next { s with pc := if s.reg x = s.reg y then s.pc + 4#16 else s.pc + 2#16 } ∧
    exec (.sneV x y) s = .next { s with pc := if s.reg x ≠ s.reg y then s.pc + 4#16 else s.pc + 2#16 }

/-- A run that completes at A stays there: a jump to its own address leaves the state unchanged at every step (R103; the
end of a run is R232, the spec's decision D31). -/
def Obligations.ACompletedRunStaysWhereItIs : Prop := ∀ a s, CompletesAt a s → step s = .next s

/-! Registers and the ALU -/

/-- R120, R121: set and add immediate; the sum wraps and VF is not a flag of it. -/
def Obligations.ImmediateLoadAndAdd : Prop :=
  ∀ (x : Reg) (kk : Byte) (s : State),
    (∃ t, exec (.ldK x kk) s = .next t ∧ WritesReg s t x kk) ∧
    (∃ t, exec (.addK x kk) s = .next t ∧
      WritesReg s t x (BitVec.ofNat 8 (((s.reg x).toNat + kk.toNat) % 256)))

/-- R122-R125 (from general knowledge; VF untouched unless x = 0xF: the spec's decision D11). -/
def Obligations.CopyAndBitwiseOperations : Prop :=
  ∀ (x y : Reg) (s : State),
    (∃ t, exec (.ldV x y) s = .next t ∧ WritesReg s t x (s.reg y)) ∧
    (∃ t, exec (.orV x y) s = .next t ∧ WritesReg s t x (s.reg x ||| s.reg y)) ∧
    (∃ t, exec (.andV x y) s = .next t ∧ WritesReg s t x (s.reg x &&& s.reg y)) ∧
    (∃ t, exec (.xorV x y) s = .next t ∧ WritesReg s t x (s.reg x ^^^ s.reg y))

/-- R126: the sum mod 256, and VF 1 exactly when the exact sum exceeds 255. With x = 0xF the flag stays (the spec's
decision D10). -/
def Obligations.AddSetsTheCarry : Prop :=
  ∀ (x y : Reg) (s : State), ∃ t, exec (.addV x y) s = .next t ∧
    WritesRegAndFlag s t x (BitVec.ofNat 8 (((s.reg x).toNat + (s.reg y).toNat) % 256))
      (if (s.reg x).toNat + (s.reg y).toNat > 255 then 1 else 0)

/-- R127, R129 (VF 1 when there is no borrow: the spec's decision D8; with x = 0xF the flag stays: D10). -/
def Obligations.SubtractionsSetNoBorrow : Prop :=
  ∀ (x y : Reg) (s : State),
    (∃ t, exec (.sub x y) s = .next t ∧
      WritesRegAndFlag s t x (BitVec.ofInt 8 ((s.reg x).toNat - (s.reg y).toNat : Int))
        (if (s.reg x).toNat ≥ (s.reg y).toNat then 1 else 0)) ∧
    (∃ t, exec (.subn x y) s = .next t ∧
      WritesRegAndFlag s t x (BitVec.ofInt 8 ((s.reg y).toNat - (s.reg x).toNat : Int))
        (if (s.reg y).toNat ≥ (s.reg x).toNat then 1 else 0))

/-- R128, R130 (Vx is shifted, whatever y is: the spec's decision D9; with x = 0xF the flag stays: D10). -/
def Obligations.ShiftsSetTheBitShiftedOut : Prop :=
  ∀ (x y : Reg) (s : State),
    (∃ t, exec (.shr x y) s = .next t ∧
      WritesRegAndFlag s t x (BitVec.ofNat 8 ((s.reg x).toNat / 2)) ((s.reg x).toNat % 2)) ∧
    (∃ t, exec (.shl x y) s = .next t ∧
      WritesRegAndFlag s t x (BitVec.ofNat 8 ((s.reg x).toNat * 2 % 256)) ((s.reg x).toNat / 128))

/-- R131 (from general knowledge; the draw is the spec's decision D15): Vx := a drawn byte AND kk, for every draw; one byte
is drawn and nothing else changes; the bits outside kk are 0. -/
def Obligations.RandomByteIsMasked : Prop :=
  ∀ (x : Reg) (kk : Byte) (s : State), ∃ t, exec (.rnd x kk) s = .next t ∧
    t = { s with v := t.v, pc := s.pc + 2#16, draws := s.draws + 1 } ∧
    t.reg x = Config.randomByte s.source s.draws &&& kk ∧ t.reg x &&& ~~~kk = 0#8 ∧ ∀ z, z ≠ x → t.reg z = s.reg z

/-! Index register and memory -/

/-- R150: I := nnn. -/
def Obligations.SetIndexLoadsTheAddress : Prop :=
  ∀ (nnn : Addr) (s : State), ∃ t, exec (.ldI nnn) s = .next t ∧ t = { s with i := t.i, pc := s.pc + 2#16 } ∧
    t.i.toNat = nnn.toNat

/-- R151 (from general knowledge; VF not written: the spec's decision D5) and R152 (the whole of Vx: its decision D17; the
base: D18). -/
def Obligations.IndexAddAndGlyphAddress : Prop :=
  ∀ (x : Reg) (s : State),
    (∃ t, exec (.addIV x) s = .next t ∧ t = { s with i := t.i, pc := s.pc + 2#16 } ∧
      t.i.toNat = (s.i.toNat + (s.reg x).toNat) % 65536) ∧
    (∃ t, exec (.ldF x) s = .next t ∧ t = { s with i := t.i, pc := s.pc + 2#16 } ∧
      t.i.toNat = 0x050 + 5 * (s.reg x).toNat)

/-- R153: hundreds, tens and units at I, I+1, I+2 and no other byte; `OutOfBoundsAddress` with nothing written when I + 2
passes 0xFFF (the latch and nothing else: the spec's decisions D1, D2; in a next state: log 2). -/
def Obligations.BcdStoresThreeDigits : Prop :=
  ∀ (x : Reg) (s : State),
    (s.i.toNat + 2 ≤ 0xFFF → ∃ t, exec (.ldB x) s = .next t ∧ t = { s with mem := t.mem, pc := s.pc + 2#16 } ∧
      (t.mem.read s.i.toNat).toNat = (s.reg x).toNat / 100 ∧
      (t.mem.read (s.i.toNat + 1)).toNat = (s.reg x).toNat / 10 % 10 ∧
      (t.mem.read (s.i.toNat + 2)).toNat = (s.reg x).toNat % 10 ∧
      ∀ a, a < s.i.toNat ∨ s.i.toNat + 2 < a → t.mem.read a = s.mem.read a) ∧
    (0xFFF < s.i.toNat + 2 → ∃ r, exec (.ldB x) s = .next { s with flt := some r } ∧
      r.kind = .outOfBoundsAddress ∧ r.faddr = s.i)

/-- R154 (I unchanged: the spec's decision D12): V0..Vx at I..I+x and no other byte; `OutOfBoundsAddress` with nothing
written when I + x passes 0xFFF (its decisions D1, D2; log 2). -/
def Obligations.RegisterDumpStoresV0ToVx : Prop :=
  ∀ (x : Reg) (s : State),
    (s.i.toNat + x.toNat ≤ 0xFFF → ∃ t, exec (.stRegs x) s = .next t ∧
      t = { s with mem := t.mem, pc := s.pc + 2#16 } ∧
      (∀ k : Reg, k.toNat ≤ x.toNat → t.mem.read (s.i.toNat + k.toNat) = s.reg k) ∧
      ∀ a, a < s.i.toNat ∨ s.i.toNat + x.toNat < a → t.mem.read a = s.mem.read a) ∧
    (0xFFF < s.i.toNat + x.toNat → ∃ r, exec (.stRegs x) s = .next { s with flt := some r } ∧
      r.kind = .outOfBoundsAddress ∧ r.faddr = s.i)

/-- R155 (I unchanged: the spec's decision D12): V0..Vx from I..I+x, no other register and no memory;
`OutOfBoundsAddress` with no register written when I + x passes 0xFFF (its decisions D1, D2; log 2). -/
def Obligations.RegisterLoadReadsV0ToVx : Prop :=
  ∀ (x : Reg) (s : State),
    (s.i.toNat + x.toNat ≤ 0xFFF → ∃ t, exec (.ldRegs x) s = .next t ∧
      t = { s with v := t.v, pc := s.pc + 2#16 } ∧
      (∀ k : Reg, k.toNat ≤ x.toNat → t.reg k = s.mem.read (s.i.toNat + k.toNat)) ∧
      ∀ k : Reg, x.toNat < k.toNat → t.reg k = s.reg k) ∧
    (0xFFF < s.i.toNat + x.toNat → ∃ r, exec (.ldRegs x) s = .next { s with flt := some r } ∧
      r.kind = .outOfBoundsAddress ∧ r.faddr = s.i)

/-- A dump and a load at the same I bring V0..Vx back, from any state with that memory and that I (R154, R155; D12). -/
def Obligations.RegisterLoadUndoesTheDump : Prop :=
  ∀ (x : Reg) (s t u : State), s.i.toNat + x.toNat ≤ 0xFFF → exec (.stRegs x) s = .next t → u.mem = t.mem → u.i = s.i →
    ∃ w, exec (.ldRegs x) u = .next w ∧ ∀ k : Reg, k.toNat ≤ x.toNat → w.reg k = s.reg k

/-- R60, R255 (derived by the spec from R50, R55, R57): bytes a dump has just stored are what the next fetch reads, at
once. -/
def Obligations.FetchSeesTheBytesJustStored : Prop :=
  ∀ (x k : Reg) (s t u : State), s.i.toNat + x.toNat ≤ 0xFFF → k.toNat < x.toNat → exec (.stRegs x) s = .next t →
    u.mem = t.mem → u.pc.toNat = s.i.toNat + k.toNat →
    u.fetch = some (BitVec.ofNat 16 (256 * (s.reg k).toNat + (s.reg (k + 1#4)).toNat))

/-! Display -/

/-- R170 (from general knowledge; REDRAW whatever changes: the spec's decision D16). -/
def Obligations.ClearScreenClearsEveryPixel : Prop :=
  ∀ s : State, ∃ t, exec .cls s = .next t ∧ t = { s with fb := t.fb, redraw := true, pc := s.pc + 2#16 } ∧
    ∀ row col, FrameBuffer.pixel t.fb row col = false

/-- R171, R173: a pixel toggles exactly where a set sprite bit falls, wrapping at both edges; VF is 1 exactly when such a
bit fell on a lit pixel, else 0; REDRAW is set; nothing else changes; `OutOfBoundsAddress` with nothing written when n > 0
and I + n - 1 passes 0xFFF. Bit order, latched coordinates, n = 0 and REDRAW are the spec's decision D16, the fault's effect
its decisions D1, D2 (log 2). -/
def Obligations.DrawTogglesTheSpriteAndReportsCollision : Prop :=
  ∀ (x y : Reg) (n : Nibble) (s : State),
    (n.toNat = 0 ∨ s.i.toNat + n.toNat - 1 ≤ 0xFFF → ∃ t, exec (.drw x y n) s = .next t ∧
      t = { s with v := t.v, fb := t.fb, redraw := true, pc := s.pc + 2#16 } ∧
      (∀ row col, FrameBuffer.pixel t.fb row col ≠ FrameBuffer.pixel s.fb row col ↔
        SpriteBitOn s (s.reg x).toNat (s.reg y).toNat n.toNat row col) ∧
      (t.reg VF = 1#8 ↔ ∃ row col, SpriteBitOn s (s.reg x).toNat (s.reg y).toNat n.toNat row col ∧
        FrameBuffer.pixel s.fb row col = true) ∧
      (t.reg VF = 0#8 ∨ t.reg VF = 1#8) ∧ ∀ z, z ≠ VF → t.reg z = s.reg z) ∧
    (0 < n.toNat ∧ 0xFFF < s.i.toNat + n.toNat - 1 → ∃ r, exec (.drw x y n) s = .next { s with flt := some r } ∧
      r.kind = .outOfBoundsAddress ∧ r.faddr = s.i)

/-- R171, in the corrected form of 90_conflicts.md C5: a sprite drawn twice at one place restores the buffer exactly, and
the second draw collides exactly when a set bit fell on a pixel that was 0 before the first. -/
def Obligations.DrawingTwiceRestoresTheScreen : Prop :=
  ∀ (x y : Reg) (n : Nibble) (s t u : State), n.toNat = 0 ∨ s.i.toNat + n.toNat - 1 ≤ 0xFFF →
    exec (.drw x y n) s = .next t → u.fb = t.fb → u.mem = s.mem → u.i = s.i → u.reg x = s.reg x → u.reg y = s.reg y →
    ∃ w, exec (.drw x y n) u = .next w ∧ w.fb = s.fb ∧
      (w.reg VF = 1#8 ↔ ∃ row col, SpriteBitOn s (s.reg x).toNat (s.reg y).toNat n.toNat row col ∧
        FrameBuffer.pixel s.fb row col = false)

/-! Keypad and timers -/

/-- R190, R191: the skips on the key whose number is the low nibble of Vx. -/
def Obligations.SkipsOnAKey : Prop :=
  ∀ (x : Reg) (s : State),
    exec (.skp x) s = .next
      { s with pc := if s.keyDown (BitVec.ofNat 4 ((s.reg x).toNat % 16)) = true then s.pc + 4#16 else s.pc + 2#16 } ∧
    exec (.sknp x) s = .next
      { s with pc := if s.keyDown (BitVec.ofNat 4 ((s.reg x).toNat % 16)) = false then s.pc + 4#16 else s.pc + 2#16 }

/-- R192 (from general knowledge; the spec's decision D14): with a key pressed, Vx := the lowest one pressed; with none,
nothing changes and the same instruction runs at the next step. -/
def Obligations.WaitForKeyTakesTheLowestPressed : Prop :=
  ∀ (x : Reg) (s : State),
    (∀ k : Nibble, s.keyDown k = true → (∀ j : Nibble, j.toNat < k.toNat → s.keyDown j = false) →
      ∃ t, exec (.ldVK x) s = .next t ∧ WritesReg s t x (BitVec.ofNat 8 k.toNat)) ∧
    ((∀ k : Nibble, s.keyDown k = false) → exec (.ldVK x) s = .next s)

/-- R193, R194, R195: Vx := DT, DT := Vx, ST := Vx. -/
def Obligations.TimerReadsAndWrites : Prop :=
  ∀ (x : Reg) (s : State),
    (∃ t, exec (.ldVDT x) s = .next t ∧ WritesReg s t x s.dt) ∧
    exec (.ldDTV x) s = .next { s with dt := s.reg x, pc := s.pc + 2#16 } ∧
    exec (.ldSTV x) s = .next { s with st := s.reg x, pc := s.pc + 2#16 }

/-! Host transactions -/

/-- R220, R28, R29 (while faulted too: the spec's decision D22): k ticks take k from each timer, stopping at 0, and change
nothing else. -/
def Obligations.TicksCountTheTimersDownToZero : Prop :=
  ∀ k s, runTransactions (List.replicate k .tick60Hz) s =
    { s with dt := BitVec.ofNat 8 (s.dt.toNat - k), st := BitVec.ofNat 8 (s.st.toNat - k) }

/-- R252 (size before copy, nothing else written: the spec's decision D21): an image of at most 3584 bytes lies at 0x200
and every other byte and element is unchanged; a larger one changes nothing and returns `ImageTooLarge` (log 14). -/
def Obligations.LoadImageCopiesOrRefusesWhole : Prop :=
  ∀ (img : List Byte) (s : State),
    (img.length ≤ 3584 → ∃ t, transact (.loadImage img) s = (t, .ok) ∧ t = { s with mem := t.mem } ∧
      (∀ k (h : k < img.length), t.mem.read (0x200 + k) = img[k]) ∧
      ∀ a, a < 0x200 ∨ 0x200 + img.length ≤ a → t.mem.read a = s.mem.read a) ∧
    (3584 < img.length → transact (.loadImage img) s = (s, .fault .imageTooLarge))

/-- R253, R258, R82: after reset and a load, the first step fetches the first two bytes of the image, the first the high
byte. -/
def Obligations.LaunchedProgramStartsAtItsFirstBytes : Prop :=
  ∀ b₀ b₁ img s, Launched (b₀ :: b₁ :: img) s →
    s.pc = 0x200#16 ∧ NoFault s ∧ s.fetch = some (BitVec.ofNat 16 (256 * b₀.toNat + b₁.toNat))

/-- R222, R224, R225, R227, R229, R250: what each of the other transactions returns, and that it writes the one element it
names (reset writes them all). Reset of KEY, `setKey`, `consumesRedrawFlag`, the raw port, the sound poll and `inspect` are
the spec's decisions D25, D26, D27, D29, D30. -/
def Obligations.HostTransactionsWriteOnlyWhatTheyName : Prop :=
  ∀ s : State,
    transact .reset s = ({ State.reset with source := s.source, draws := s.draws }, .none) ∧
    transact .consumesRedrawFlag s = ({ s with redraw := false }, .flag s.redraw) ∧
    transact .soundTimer s = (s, .byte s.st) ∧ transact .inspect s = (s, .state s) ∧
    (∀ k b, (transact (.setKey k b) s).1 = { s with key := (transact (.setKey k b) s).1.key } ∧
      ∀ j, (transact (.setKey k b) s).1.keyDown j = if j = k then b else s.keyDown j) ∧
    (∀ a : Addr, transact (.memRead a) s = (s, .byte (s.mem.read a.toNat))) ∧
    (∀ (a : Addr) b, (transact (.memWrite a b) s).1 = { s with mem := (transact (.memWrite a b) s).1.mem } ∧
      ∀ c, (transact (.memWrite a b) s).1.mem.read c = if c = a.toNat then b else s.mem.read c)

/-- R223: the bits of the display in row-major order, with no state change. -/
def Obligations.FrameBufferIsReadInRowMajorOrder : Prop :=
  ∀ s : State, ∃ bits, transact .frameBuffer s = (s, .pixels bits) ∧ bits.length = 2048 ∧
    ∀ (row : Fin 32) (col : Fin 64), bits[row.val * 64 + col.val]? = some (FrameBuffer.pixel s.fb row col)

/-! Several cores -/

/-- R231: several cores share nothing. Whatever calls the host makes to some cores, in any order, each core ends as if its
own transactions had run on it alone. -/
def Obligations.EachCoreRunsAsIfAlone : Prop :=
  ∀ (calls : List Call) (cores : Cores) (j : Nat),
    (Cores.run calls cores)[j]? = (cores[j]?).map (runTransactions (callsTo j calls))

/-- R231, R6: cores that are constructed together draw from different sources, and no run makes two of them share one. The
numbers of the sources are the model's own (log 6). -/
def Obligations.NoTwoCoresShareARandomSource : Prop :=
  (∀ n, Cores.SourcesApart (Cores.construct n)) ∧
  ∀ calls cores, Cores.SourcesApart cores → Cores.SourcesApart (Cores.run calls cores)
end

