-- ==== Sys2Proof/Laws/Decode.lean ====
section
/-! SUPPORT. The fields of a word put together from its parts, for each format of 30_encoding.md R71, so that a proof about
decoding never looks at single bits. -/

namespace Sys2Proof

/-! Each format bit by bit -/

theorem getLsbD_formNNN (h : Nibble) (nnn : Addr) (k : Nat) :
    (formNNN h nnn).getLsbD k = if k < 12 then nnn.getLsbD k else h.getLsbD (k - 12) := BitVec.getLsbD_append

theorem getLsbD_formXKK (h x : Nibble) (kk : Byte) (k : Nat) :
    (formXKK h x kk).getLsbD k =
      if k < 8 then kk.getLsbD k else if k - 8 < 4 then x.getLsbD (k - 8) else h.getLsbD (k - 8 - 4) := by
  refine BitVec.getLsbD_append.trans ?_
  rw [BitVec.getLsbD_append]

theorem getLsbD_formXYN (h x y n : Nibble) (k : Nat) :
    (formXYN h x y n).getLsbD k =
      if k < 4 then n.getLsbD k else if k - 4 < 4 then y.getLsbD (k - 4) else
        if k - 4 - 4 < 4 then x.getLsbD (k - 4 - 4) else h.getLsbD (k - 4 - 4 - 4) := by
  refine BitVec.getLsbD_append.trans ?_
  rw [BitVec.getLsbD_append, BitVec.getLsbD_append]

/-! Format NNN -/

@[simp] theorem fieldH_formNNN (h : Nibble) (nnn : Addr) : fieldH (formNNN h nnn) = h := by
  ext k hk; simp [fieldH, getLsbD_formNNN, BitVec.getLsbD_eq_getElem hk]

@[simp] theorem fieldNNN_formNNN (h : Nibble) (nnn : Addr) : fieldNNN (formNNN h nnn) = nnn := by
  ext k hk; simp [fieldNNN, getLsbD_formNNN, hk]

/-! Formats XKK and XS -/

@[simp] theorem fieldH_formXKK (h x : Nibble) (kk : Byte) : fieldH (formXKK h x kk) = h := by
  ext k hk
  have h1 : ¬ 12 + k < 8 := by omega
  have h2 : ¬ 12 + k - 8 < 4 := by omega
  have h3 : 12 + k - 8 - 4 = k := by omega
  simp [fieldH, getLsbD_formXKK, h1, h2, h3, BitVec.getLsbD_eq_getElem hk]

@[simp] theorem fieldX_formXKK (h x : Nibble) (kk : Byte) : fieldX (formXKK h x kk) = x := by
  ext k hk; simp [fieldX, getLsbD_formXKK, hk]

@[simp] theorem fieldKK_formXKK (h x : Nibble) (kk : Byte) : fieldKK (formXKK h x kk) = kk := by
  ext k hk; simp [fieldKK, getLsbD_formXKK, hk]

/-! Formats XYS and XYN -/

@[simp] theorem fieldH_formXYN (h x y n : Nibble) : fieldH (formXYN h x y n) = h := by
  ext k hk
  have h1 : ¬ 12 + k < 4 := by omega
  have h2 : ¬ 12 + k - 4 < 4 := by omega
  have h3 : ¬ 12 + k - 4 - 4 < 4 := by omega
  have h4 : 12 + k - 4 - 4 - 4 = k := by omega
  simp [fieldH, getLsbD_formXYN, h1, h2, h3, h4, BitVec.getLsbD_eq_getElem hk]

@[simp] theorem fieldX_formXYN (h x y n : Nibble) : fieldX (formXYN h x y n) = x := by
  ext k hk
  have h1 : ¬ 8 + k < 4 := by omega
  have h2 : ¬ 8 + k - 4 < 4 := by omega
  have h3 : 8 + k - 4 - 4 = k := by omega
  simp [fieldX, getLsbD_formXYN, h1, h2, h3, hk]

@[simp] theorem fieldY_formXYN (h x y n : Nibble) : fieldY (formXYN h x y n) = y := by
  ext k hk; simp [fieldY, getLsbD_formXYN, hk]

@[simp] theorem fieldN_formXYN (h x y n : Nibble) : fieldN (formXYN h x y n) = n := by
  ext k hk; simp [fieldN, getLsbD_formXYN, hk]

/-! A word is made of its fields -/

theorem formNNN_fields (op : Word) : formNNN (fieldH op) (fieldNNN op) = op := by
  refine BitVec.eq_of_getLsbD_eq fun k hk => ?_
  rw [getLsbD_formNNN]
  split
  · next h => simp [fieldNNN, h]
  · next h => simp [fieldH, show k - 12 < 4 by omega, show 12 + (k - 12) = k by omega]

theorem formXKK_fields (op : Word) : formXKK (fieldH op) (fieldX op) (fieldKK op) = op := by
  refine BitVec.eq_of_getLsbD_eq fun k hk => ?_
  rw [getLsbD_formXKK]
  split
  · next h => simp [fieldKK, h]
  · split
    · next h h' => simp [fieldX, h', show 8 + (k - 8) = k by omega]
    · next h h' => simp [fieldH, show k - 8 - 4 < 4 by omega, show 12 + (k - 8 - 4) = k by omega]

theorem formXYN_fields (op : Word) : formXYN (fieldH op) (fieldX op) (fieldY op) (fieldN op) = op := by
  refine BitVec.eq_of_getLsbD_eq fun k hk => ?_
  rw [getLsbD_formXYN]
  split
  · next h => simp [fieldN, h]
  · split
    · next h h' => simp [fieldY, h', show 4 + (k - 4) = k by omega]
    · split
      · next h h' h'' => simp [fieldX, h'', show 8 + (k - 4 - 4) = k by omega]
      · next h h' h'' =>
        simp [fieldH, show k - 4 - 4 - 4 < 4 by omega, show 12 + (k - 4 - 4 - 4) = k by omega]

/-! Bytes -/

theorem getLsbD_wordOfBytes (hi lo : Byte) (k : Nat) :
    (wordOfBytes hi lo).getLsbD k = if k < 8 then lo.getLsbD k else hi.getLsbD (k - 8) := BitVec.getLsbD_append

/-- A word is its high byte then its low byte (20_memory.md R55). -/
@[simp] theorem wordOfBytes_bytes (w : Word) : wordOfBytes (highByte w) (lowByte w) = w := by
  refine BitVec.eq_of_getLsbD_eq fun k hk => ?_
  rw [getLsbD_wordOfBytes]
  split
  · next h => simp [lowByte, h]
  · next h => simp [highByte, show k - 8 < 8 by omega, show 8 + (k - 8) = k by omega]

/-- The decoder rejects a word only as an unsupported opcode, and names that word (30_encoding.md R75). -/
theorem decode_error (op : Word) (e : DecodeError) (h : decode op = .error e) : e = .unsupportedOpcode op := by
  simp only [decode] at h
  split at h <;> (try split at h) <;> (try split at h) <;> cases h <;> rfl

end Sys2Proof
end

