-- ==== Sys2Proof/Laws/Memory.lean ====
section
/-! SUPPORT. The laws of memory: a read after a write, and that every memory operation keeps the canonical form. The read
laws hold of every list, canonical or not. -/

namespace Sys2Proof.Machine

@[simp] theorem Memory.read_nil (a : Nat) : Memory.read [] a = resetByte a := rfl

theorem Memory.read_cons (c : Host.Cell) (m : Memory) (a : Nat) :
    Memory.read (c :: m) a = if c.1 = a then c.2 else Memory.read m a := rfl

/-- An address that no cell lists reads as reset left it. -/
theorem Memory.read_unlisted (m : Memory) (a : Nat) (h : ∀ c ∈ m, c.1 ≠ a) : m.read a = resetByte a := by
  induction m with
  | nil => rfl
  | cons c m ih =>
    rw [Memory.read_cons, if_neg (h c (by simp))]
    exact ih fun d hd => h d (by simp [hd])

/-- A listed cell of a rising list reads as its byte. -/
theorem Memory.read_listed (m : Memory) (h : m.Pairwise fun c d => c.1 < d.1) (c : Host.Cell) (hc : c ∈ m) :
    m.read c.1 = c.2 := by
  induction m with
  | nil => simp at hc
  | cons d m ih =>
    rw [List.pairwise_cons] at h
    rcases List.mem_cons.mp hc with rfl | hc
    · simp [Memory.read_cons]
    · have := h.1 c hc
      rw [Memory.read_cons, if_neg (by omega)]
      exact ih h.2 hc

theorem Memory.read_remove_same (m : Memory) (a : Nat) : (m.remove a).read a = resetByte a :=
  Memory.read_unlisted _ _ fun c hc => by simpa using (List.mem_filter.mp hc).2

theorem Memory.read_remove_other (m : Memory) (a b : Nat) (h : b ≠ a) : (m.remove a).read b = m.read b := by
  induction m with
  | nil => rfl
  | cons c m ih =>
    unfold Memory.remove at ih ⊢
    by_cases hc : c.1 = a
    · rw [List.filter_cons_of_neg (by simp [hc]), ih, Memory.read_cons, if_neg (by omega)]
    · rw [List.filter_cons_of_pos (by simp [hc]), Memory.read_cons, Memory.read_cons, ih]

theorem Memory.read_put_other (m : Memory) (a b : Nat) (v : Byte) (h : b ≠ a) : (m.put a v).read b = m.read b := by
  induction m with
  | nil => simp [Memory.put, Memory.read_cons, Ne.symm h]
  | cons c m ih =>
    unfold Memory.put
    split
    · rw [Memory.read_cons, if_neg (Ne.symm h)]
    · rw [Memory.read_cons, Memory.read_cons, ih]

theorem Memory.read_put_same (m : Memory) (a : Nat) (v : Byte) (h : ∀ c ∈ m, c.1 ≠ a) : (m.put a v).read a = v := by
  induction m with
  | nil => simp [Memory.put, Memory.read_cons]
  | cons c m ih =>
    unfold Memory.put
    split
    · simp [Memory.read_cons]
    · rw [Memory.read_cons, if_neg (h c (by simp))]
      exact ih fun d hd => h d (by simp [hd])

theorem Memory.remove_unlisted (m : Memory) (a : Nat) : ∀ c ∈ m.remove a, c.1 ≠ a := fun c hc => by
  simpa using (List.mem_filter.mp hc).2

/-- A read after a write to the same address gives the byte written. -/
theorem Memory.read_write_same (m : Memory) (a : Nat) (v : Byte) : (m.write a v).read a = v := by
  unfold Memory.write
  split
  · next h => rw [Memory.read_remove_same, h]
  · exact Memory.read_put_same _ _ _ (Memory.remove_unlisted m a)

/-- A write leaves every other address alone. -/
theorem Memory.read_write_other (m : Memory) (a b : Nat) (v : Byte) (h : b ≠ a) : (m.write a v).read b = m.read b := by
  unfold Memory.write
  split
  · exact Memory.read_remove_other m a b h
  · rw [Memory.read_put_other _ _ _ _ h, Memory.read_remove_other m a b h]

/-- What the bytes written at ascending addresses read as afterwards, and that no other byte changes. -/
theorem Memory.read_writeBytes (m : Memory) (a b : Nat) (bs : List Byte) :
    (m.writeBytes a bs).read b = if h : a ≤ b ∧ b < a + bs.length then bs[b - a] else m.read b := by
  induction bs generalizing m a with
  | nil => simp [Memory.writeBytes]
  | cons c bs ih =>
    rw [Memory.writeBytes, ih]
    by_cases h1 : a + 1 ≤ b ∧ b < a + 1 + bs.length
    · rw [dif_pos h1, dif_pos (by simp only [List.length_cons]; omega)]
      have : b - a = (b - (a + 1)) + 1 := by omega
      simp [this]
    · rw [dif_neg h1]
      by_cases h2 : b = a
      · subst h2
        rw [Memory.read_write_same, dif_pos (by simp)]
        simp
      · rw [Memory.read_write_other _ _ _ _ h2, dif_neg (by simp only [List.length_cons]; omega)]

theorem Memory.length_readBytes (m : Memory) (a n : Nat) : (m.readBytes a n).length = n := by
  induction n generalizing a with
  | zero => rfl
  | succ n ih => simp [Memory.readBytes, ih]

theorem Memory.getElem_readBytes (m : Memory) (a n k : Nat) (h : k < n) :
    (m.readBytes a n)[k]'(by rw [Memory.length_readBytes]; exact h) = m.read (a + k) := by
  induction n generalizing a k with
  | zero => omega
  | succ n ih =>
    cases k with
    | zero => simp [Memory.readBytes]
    | succ k =>
      simp only [Memory.readBytes, List.getElem_cons_succ]
      rw [ih (a + 1) k (by omega)]
      congr 1
      omega

/-! The canonical form -/

theorem Memory.wf_nil : Memory.wf [] := by simp [Memory.wf]

theorem Memory.wf_remove (m : Memory) (a : Nat) (h : m.wf) : (m.remove a).wf :=
  ⟨h.1.filter _, fun c hc => h.2 c (List.mem_filter.mp hc).1⟩

theorem Memory.mem_put (m : Memory) (a : Nat) (v : Byte) (c : Host.Cell) :
    c ∈ m.put a v ↔ c = (a, v) ∨ c ∈ m := by
  induction m with
  | nil => simp [Memory.put]
  | cons d m ih =>
    unfold Memory.put
    split
    · simp
    · simp [ih, or_left_comm]

theorem Memory.pairwise_put (m : Memory) (a : Nat) (v : Byte) (h : m.Pairwise fun c d => c.1 < d.1)
    (hne : ∀ c ∈ m, c.1 ≠ a) : (m.put a v).Pairwise fun c d => c.1 < d.1 := by
  induction m with
  | nil => simp [Memory.put]
  | cons d m ih =>
    unfold Memory.put
    have hd := List.pairwise_cons.mp h
    split
    · next hlt =>
      refine List.pairwise_cons.mpr ⟨fun c hc => ?_, h⟩
      rcases List.mem_cons.mp hc with rfl | hc
      · exact hlt
      · exact Nat.lt_trans hlt (hd.1 c hc)
    · next hge =>
      have hda := hne d (by simp)
      refine List.pairwise_cons.mpr ⟨fun c hc => ?_, ih hd.2 fun c hc => hne c (by simp [hc])⟩
      rcases (Memory.mem_put m a v c).mp hc with rfl | hc
      · show d.1 < a
        omega
      · exact hd.1 c hc

/-- Writing to one of the 4096 cells keeps the canonical form. -/
theorem Memory.wf_write (m : Memory) (a : Nat) (v : Byte) (ha : a < Config.memSize) (h : m.wf) : (m.write a v).wf := by
  unfold Memory.write
  have hr := Memory.wf_remove m a h
  split
  · exact hr
  · next hv =>
    refine ⟨Memory.pairwise_put _ _ _ hr.1 (Memory.remove_unlisted m a), fun c hc => ?_⟩
    rcases (Memory.mem_put _ _ _ c).mp hc with rfl | hc
    · exact ⟨ha, hv⟩
    · exact hr.2 c hc

/-- Writing bytes within the 4096 cells keeps the canonical form. -/
theorem Memory.wf_writeBytes (m : Memory) (a : Nat) (bs : List Byte) (ha : a + bs.length ≤ Config.memSize) (h : m.wf) :
    (m.writeBytes a bs).wf := by
  induction bs generalizing m a with
  | nil => exact h
  | cons b bs ih =>
    simp only [List.length_cons] at ha
    exact ih _ _ (by omega) (Memory.wf_write m a b (by omega) h)

end Sys2Proof.Machine
end

