-- ==== Sys2Proof/Laws/Display.lean ====
section
/-! SUPPORT. What the sprite drawer does to every pixel, and when its collision detector is set (43_display.md R171, R173).
The one idea: no two bits of a sprite reach one pixel, so each pixel toggles at most once. -/

namespace Sys2Proof.Machine

/-! One pixel -/

theorem FrameBuffer.pixel_blank (row : Fin 32) (col : Fin 64) : FrameBuffer.pixel FrameBuffer.blank row col = false := by
  simp [FrameBuffer.pixel, FrameBuffer.blank]

/-- Toggling changes the one pixel and no other. -/
theorem FrameBuffer.pixel_toggle (fb : FrameBuffer) (row row' : Fin 32) (col col' : Fin 64) :
    FrameBuffer.pixel (FrameBuffer.toggle fb row col) row' col' =
      (FrameBuffer.pixel fb row' col' ^^ decide (row' = row ∧ col' = col)) := by
  have hc := col'.isLt
  by_cases hr : row' = row
  · subst hr
    simp only [FrameBuffer.pixel, FrameBuffer.toggle, Vector.getElem_set_self, BitVec.getLsbD_xor,
      BitVec.getLsbD_twoPow, true_and, Fin.ext_iff]
    congr 1
    by_cases h : col.val = col'.val <;> simp [h, eq_comm]
  · have hne : row.val ≠ row'.val := fun e => hr (Fin.ext e.symm)
    simp [FrameBuffer.pixel, FrameBuffer.toggle, hne, hr]

/-- Two buffers with the same pixels are the same buffer. -/
theorem FrameBuffer.ext_pixel (a b : FrameBuffer)
    (h : ∀ row col, FrameBuffer.pixel a row col = FrameBuffer.pixel b row col) : a = b := by
  refine Vector.ext fun r hr => BitVec.eq_of_getLsbD_eq fun c hc => ?_
  exact h ⟨r, hr⟩ ⟨c, hc⟩

/-! Sprites -/

/-- The sprite byte r has a set bit on (row, col): bit 7 - c of it, with col = (cx + c) mod 64 and c = 0 .. n-1. -/
def byteCovers (b : Byte) (cx : Nat) (col : Fin 64) (n : Nat) : Prop :=
  ∃ c < n, b.getLsbD (7 - c) = true ∧ col = spriteCol cx c

/-- A sprite whose first byte is row r of it has a set bit on (row, col). -/
def rowsCover (sprite : List Byte) (cx cy r : Nat) (row : Fin 32) (col : Fin 64) : Prop :=
  ∃ k, ∃ h : k < sprite.length, row = spriteRow cy (r + k) ∧ byteCovers sprite[k] cx col 8

/-- A sprite drawn with its top left corner at column cx, row cy has a set bit on (row, col) (R171). -/
def spriteCovers (sprite : List Byte) (cx cy : Nat) (row : Fin 32) (col : Fin 64) : Prop :=
  ∃ k, ∃ h : k < sprite.length, ∃ c < 8,
    sprite[k].getLsbD (7 - c) = true ∧ row = spriteRow cy k ∧ col = spriteCol cx c

theorem rowsCover_zero (sprite : List Byte) (cx cy : Nat) (row : Fin 32) (col : Fin 64) :
    rowsCover sprite cx cy 0 row col ↔ spriteCovers sprite cx cy row col := by
  simp only [rowsCover, spriteCovers, byteCovers, Nat.zero_add]
  constructor
  · rintro ⟨k, h, hr, c, hc, hb, hcol⟩
    exact ⟨k, h, c, hc, hb, hr, hcol⟩
  · rintro ⟨k, h, c, hc, hb, hr, hcol⟩
    exact ⟨k, h, hr, c, hc, hb, hcol⟩

theorem spriteCol_inj (cx c c' : Nat) (hc : c < 8) (hc' : c' < 8) (h : spriteCol cx c = spriteCol cx c') : c = c' := by
  have := congrArg Fin.val h
  simp only [spriteCol, Config.dispWidth] at this
  omega

theorem spriteRow_inj (cy r r' : Nat) (hr : r < r' + 32) (hr' : r' < r + 32) (h : spriteRow cy r = spriteRow cy r') :
    r = r' := by
  have := congrArg Fin.val h
  simp only [spriteRow, Config.dispHeight] at this
  omega

open Classical in
/-- The first n bits of a sprite byte: a pixel of the row toggles exactly where one of them is set, and the detector is
set exactly when it was, or such a pixel was on. -/
theorem Canvas.plotByte_spec (d : Canvas) (b : Byte) (cx : Nat) (row : Fin 32) (n : Nat) (hn : n ≤ 8) :
    (∀ row' col, FrameBuffer.pixel (Canvas.plotByte d b cx row n).1 row' col =
      (FrameBuffer.pixel d.1 row' col ^^ decide (row' = row ∧ byteCovers b cx col n))) ∧
    ((Canvas.plotByte d b cx row n).2 = true ↔
      d.2 = true ∨ ∃ col, byteCovers b cx col n ∧ FrameBuffer.pixel d.1 row col = true) := by
  induction n with
  | zero =>
    have hno : ∀ col, ¬ byteCovers b cx col 0 := fun col ⟨c, hc, _⟩ => by omega
    simp [Canvas.plotByte, hno]
  | succ n ih =>
    obtain ⟨hpix, hhit⟩ := ih (by omega)
    have hsucc : ∀ col, byteCovers b cx col (n + 1) ↔
        byteCovers b cx col n ∨ (b.getLsbD (7 - n) = true ∧ col = spriteCol cx n) := by
      intro col
      constructor
      · rintro ⟨c, hc, hb, hcol⟩
        rcases Nat.lt_succ_iff_lt_or_eq.mp hc with hlt | rfl
        · exact .inl ⟨c, hlt, hb, hcol⟩
        · exact .inr ⟨hb, hcol⟩
      · rintro (⟨c, hc, hb, hcol⟩ | ⟨hb, hcol⟩)
        · exact ⟨c, by omega, hb, hcol⟩
        · exact ⟨n, by omega, hb, hcol⟩
    have hnew : ¬ byteCovers b cx (spriteCol cx n) n := by
      rintro ⟨c, hc, -, hcol⟩
      have := spriteCol_inj cx n c (by omega) (by omega) hcol
      omega
    by_cases hbit : b.getLsbD (7 - n) = true
    · constructor
      · intro row' col
        simp only [Canvas.plotByte, hbit, if_true, Canvas.plot, FrameBuffer.pixel_toggle, hpix, Bool.xor_assoc]
        congr 1
        by_cases hr : row' = row
        · by_cases hcol : col = spriteCol cx n
          · subst hcol; simp [hr, hnew, hsucc, hbit]
          · simp [hr, hcol, hsucc]
        · simp [hr]
      · simp only [Canvas.plotByte, hbit, if_true, Canvas.plot, Bool.or_eq_true, hhit, hpix, hsucc]
        simp only [true_and, hnew, decide_false, Bool.xor_false]
        constructor
        · rintro ((h | ⟨col, hc, hp⟩) | h)
          · exact .inl h
          · exact .inr ⟨col, .inl hc, hp⟩
          · exact .inr ⟨_, .inr rfl, by simpa [hnew] using h⟩
        · rintro (h | ⟨col, hc | rfl, hp⟩)
          · exact .inl (.inl h)
          · exact .inl (.inr ⟨col, hc, hp⟩)
          · exact .inr (by simpa [hnew] using hp)
    · have hsame : ∀ col, byteCovers b cx col (n + 1) ↔ byteCovers b cx col n := fun col => by simp [hsucc, hbit]
      simp only [Canvas.plotByte, hbit, hsame]
      exact ⟨hpix, hhit⟩

open Classical in
/-- The sprite's bytes from its row r on: every pixel toggles exactly where a set bit falls, and the detector is set
exactly when it was, or a set bit fell on a pixel that was on. -/
theorem Canvas.plotRows_spec (d : Canvas) (cx cy r : Nat) (sprite : List Byte) (hlen : sprite.length ≤ 32) :
    (∀ row col, FrameBuffer.pixel (Canvas.plotRows d cx cy r sprite).1 row col =
      (FrameBuffer.pixel d.1 row col ^^ decide (rowsCover sprite cx cy r row col))) ∧
    ((Canvas.plotRows d cx cy r sprite).2 = true ↔
      d.2 = true ∨ ∃ row col, rowsCover sprite cx cy r row col ∧ FrameBuffer.pixel d.1 row col = true) := by
  induction sprite generalizing d r with
  | nil =>
    have hno : ∀ row col, ¬ rowsCover [] cx cy r row col := fun _ _ ⟨_, hk, _⟩ => by simp at hk
    simp [Canvas.plotRows, hno]
  | cons b bs ih =>
    simp only [List.length_cons] at hlen
    obtain ⟨hpix, hhit⟩ := ih (Canvas.plotByte d b cx (spriteRow cy r) 8) (r + 1) (by omega)
    obtain ⟨hbpix, hbhit⟩ := Canvas.plotByte_spec d b cx (spriteRow cy r) 8 (Nat.le_refl 8)
    have hcons : ∀ row col, rowsCover (b :: bs) cx cy r row col ↔
        (row = spriteRow cy r ∧ byteCovers b cx col 8) ∨ rowsCover bs cx cy (r + 1) row col := by
      intro row col
      constructor
      · rintro ⟨k, hk, hrow, hb⟩
        cases k with
        | zero => exact .inl ⟨hrow, hb⟩
        | succ k =>
          refine .inr ⟨k, by simpa using hk, ?_, by simpa using hb⟩
          rw [hrow]; congr 1; omega
      · rintro (⟨hrow, hb⟩ | ⟨k, hk, hrow, hb⟩)
        · exact ⟨0, by simp, hrow, hb⟩
        · refine ⟨k + 1, by simpa using hk, ?_, by simpa using hb⟩
          rw [hrow]; congr 1; omega
    have hdisj : ∀ col, ¬ rowsCover bs cx cy (r + 1) (spriteRow cy r) col := by
      rintro col ⟨k, hk, hrow, -⟩
      have := spriteRow_inj cy r (r + 1 + k) (by omega) (by omega) hrow
      omega
    constructor
    · intro row col
      simp only [Canvas.plotRows, hpix, hbpix, Bool.xor_assoc, hcons]
      congr 1
      by_cases hr : row = spriteRow cy r
      · subst hr; simp [hdisj]
      · simp [hr]
    · simp only [Canvas.plotRows, hhit, hbhit, hbpix, hcons]
      constructor
      · rintro ((h | ⟨col, hc, hp⟩) | ⟨row, col, hc, hp⟩)
        · exact .inl h
        · exact .inr ⟨_, col, .inl ⟨rfl, hc⟩, hp⟩
        · refine .inr ⟨row, col, .inr hc, ?_⟩
          have : row ≠ spriteRow cy r := by rintro rfl; exact hdisj _ hc
          simpa [this] using hp
      · rintro (h | ⟨row, col, ⟨rfl, hc⟩ | hc, hp⟩)
        · exact .inl (.inl h)
        · exact .inl (.inr ⟨col, hc, hp⟩)
        · refine .inr ⟨row, col, hc, ?_⟩
          have : row ≠ spriteRow cy r := by rintro rfl; exact hdisj _ hc
          simpa [this] using hp

open Classical in
/-- THE SPRITE DRAWER, whole (R171): a pixel toggles exactly where a set sprite bit falls. -/
theorem pixel_drawSprite (fb : FrameBuffer) (cx cy : Nat) (sprite : List Byte) (hlen : sprite.length ≤ 32)
    (row : Fin 32) (col : Fin 64) :
    FrameBuffer.pixel (drawSprite fb cx cy sprite).1 row col =
      (FrameBuffer.pixel fb row col ^^ decide (spriteCovers sprite cx cy row col)) := by
  simp only [drawSprite, (Canvas.plotRows_spec (fb, false) cx cy 0 sprite hlen).1, rowsCover_zero]

/-- THE COLLISION DETECTOR, whole (R171, R173): set exactly when a set sprite bit fell on a pixel that was 1. -/
theorem hit_drawSprite (fb : FrameBuffer) (cx cy : Nat) (sprite : List Byte) (hlen : sprite.length ≤ 32) :
    (drawSprite fb cx cy sprite).2 = true ↔
      ∃ row col, spriteCovers sprite cx cy row col ∧ FrameBuffer.pixel fb row col = true := by
  simp only [drawSprite, (Canvas.plotRows_spec (fb, false) cx cy 0 sprite hlen).2, rowsCover_zero]
  simp

end Sys2Proof.Machine
end

