-- ==== Sys2Proof/Laws/State.lean ====
section
/-! SUPPORT. One lemma per field per update of the state, each true by rfl, so that no later proof unfolds an update. -/

namespace Sys2Proof.Machine

/-! setReg -/

@[simp] theorem State.setReg_mem (s : State) (x : Reg) (b : Byte) : (s.setReg x b).mem = s.mem := rfl
@[simp] theorem State.setReg_v (s : State) (x : Reg) (b : Byte) :
    (s.setReg x b).v = s.v.set x.toNat b (by have := x.isLt; omega) := rfl
@[simp] theorem State.setReg_i (s : State) (x : Reg) (b : Byte) : (s.setReg x b).i = s.i := rfl
@[simp] theorem State.setReg_pc (s : State) (x : Reg) (b : Byte) : (s.setReg x b).pc = s.pc := rfl
@[simp] theorem State.setReg_sp (s : State) (x : Reg) (b : Byte) : (s.setReg x b).sp = s.sp := rfl
@[simp] theorem State.setReg_stack (s : State) (x : Reg) (b : Byte) : (s.setReg x b).stack = s.stack := rfl
@[simp] theorem State.setReg_dt (s : State) (x : Reg) (b : Byte) : (s.setReg x b).dt = s.dt := rfl
@[simp] theorem State.setReg_st (s : State) (x : Reg) (b : Byte) : (s.setReg x b).st = s.st := rfl
@[simp] theorem State.setReg_key (s : State) (x : Reg) (b : Byte) : (s.setReg x b).key = s.key := rfl
@[simp] theorem State.setReg_fb (s : State) (x : Reg) (b : Byte) : (s.setReg x b).fb = s.fb := rfl
@[simp] theorem State.setReg_redraw (s : State) (x : Reg) (b : Byte) : (s.setReg x b).redraw = s.redraw := rfl
@[simp] theorem State.setReg_flt (s : State) (x : Reg) (b : Byte) : (s.setReg x b).flt = s.flt := rfl
@[simp] theorem State.setReg_source (s : State) (x : Reg) (b : Byte) : (s.setReg x b).source = s.source := rfl
@[simp] theorem State.setReg_draws (s : State) (x : Reg) (b : Byte) : (s.setReg x b).draws = s.draws := rfl

/-! setI -/

@[simp] theorem State.setI_mem (s : State) (a : Word) : (s.setI a).mem = s.mem := rfl
@[simp] theorem State.setI_v (s : State) (a : Word) : (s.setI a).v = s.v := rfl
@[simp] theorem State.setI_i (s : State) (a : Word) : (s.setI a).i = a := rfl
@[simp] theorem State.setI_pc (s : State) (a : Word) : (s.setI a).pc = s.pc := rfl
@[simp] theorem State.setI_sp (s : State) (a : Word) : (s.setI a).sp = s.sp := rfl
@[simp] theorem State.setI_stack (s : State) (a : Word) : (s.setI a).stack = s.stack := rfl
@[simp] theorem State.setI_dt (s : State) (a : Word) : (s.setI a).dt = s.dt := rfl
@[simp] theorem State.setI_st (s : State) (a : Word) : (s.setI a).st = s.st := rfl
@[simp] theorem State.setI_key (s : State) (a : Word) : (s.setI a).key = s.key := rfl
@[simp] theorem State.setI_fb (s : State) (a : Word) : (s.setI a).fb = s.fb := rfl
@[simp] theorem State.setI_redraw (s : State) (a : Word) : (s.setI a).redraw = s.redraw := rfl
@[simp] theorem State.setI_flt (s : State) (a : Word) : (s.setI a).flt = s.flt := rfl
@[simp] theorem State.setI_source (s : State) (a : Word) : (s.setI a).source = s.source := rfl
@[simp] theorem State.setI_draws (s : State) (a : Word) : (s.setI a).draws = s.draws := rfl
@[simp] theorem State.setI_reg (s : State) (a : Word) (y : Reg) : (s.setI a).reg y = s.reg y := rfl

/-! setPc -/

@[simp] theorem State.setPc_mem (s : State) (a : Word) : (s.setPc a).mem = s.mem := rfl
@[simp] theorem State.setPc_v (s : State) (a : Word) : (s.setPc a).v = s.v := rfl
@[simp] theorem State.setPc_i (s : State) (a : Word) : (s.setPc a).i = s.i := rfl
@[simp] theorem State.setPc_pc (s : State) (a : Word) : (s.setPc a).pc = a := rfl
@[simp] theorem State.setPc_sp (s : State) (a : Word) : (s.setPc a).sp = s.sp := rfl
@[simp] theorem State.setPc_stack (s : State) (a : Word) : (s.setPc a).stack = s.stack := rfl
@[simp] theorem State.setPc_dt (s : State) (a : Word) : (s.setPc a).dt = s.dt := rfl
@[simp] theorem State.setPc_st (s : State) (a : Word) : (s.setPc a).st = s.st := rfl
@[simp] theorem State.setPc_key (s : State) (a : Word) : (s.setPc a).key = s.key := rfl
@[simp] theorem State.setPc_fb (s : State) (a : Word) : (s.setPc a).fb = s.fb := rfl
@[simp] theorem State.setPc_redraw (s : State) (a : Word) : (s.setPc a).redraw = s.redraw := rfl
@[simp] theorem State.setPc_flt (s : State) (a : Word) : (s.setPc a).flt = s.flt := rfl
@[simp] theorem State.setPc_source (s : State) (a : Word) : (s.setPc a).source = s.source := rfl
@[simp] theorem State.setPc_draws (s : State) (a : Word) : (s.setPc a).draws = s.draws := rfl
@[simp] theorem State.setPc_reg (s : State) (a : Word) (y : Reg) : (s.setPc a).reg y = s.reg y := rfl

/-! advance -/

@[simp] theorem State.advance_mem (s : State) : s.advance.mem = s.mem := rfl
@[simp] theorem State.advance_v (s : State) : s.advance.v = s.v := rfl
@[simp] theorem State.advance_i (s : State) : s.advance.i = s.i := rfl
@[simp] theorem State.advance_pc (s : State) : s.advance.pc = s.pc + 2#16 := rfl
@[simp] theorem State.advance_sp (s : State) : s.advance.sp = s.sp := rfl
@[simp] theorem State.advance_stack (s : State) : s.advance.stack = s.stack := rfl
@[simp] theorem State.advance_dt (s : State) : s.advance.dt = s.dt := rfl
@[simp] theorem State.advance_st (s : State) : s.advance.st = s.st := rfl
@[simp] theorem State.advance_key (s : State) : s.advance.key = s.key := rfl
@[simp] theorem State.advance_fb (s : State) : s.advance.fb = s.fb := rfl
@[simp] theorem State.advance_redraw (s : State) : s.advance.redraw = s.redraw := rfl
@[simp] theorem State.advance_flt (s : State) : s.advance.flt = s.flt := rfl
@[simp] theorem State.advance_source (s : State) : s.advance.source = s.source := rfl
@[simp] theorem State.advance_draws (s : State) : s.advance.draws = s.draws := rfl
@[simp] theorem State.advance_reg (s : State) (y : Reg) : s.advance.reg y = s.reg y := rfl

/-! skipIf -/

@[simp] theorem State.skipIf_mem (s : State) (c : Bool) : (s.skipIf c).mem = s.mem := rfl
@[simp] theorem State.skipIf_v (s : State) (c : Bool) : (s.skipIf c).v = s.v := rfl
@[simp] theorem State.skipIf_i (s : State) (c : Bool) : (s.skipIf c).i = s.i := rfl
@[simp] theorem State.skipIf_pc (s : State) (c : Bool) :
    (s.skipIf c).pc = if c then s.pc + 4#16 else s.pc + 2#16 := rfl
@[simp] theorem State.skipIf_sp (s : State) (c : Bool) : (s.skipIf c).sp = s.sp := rfl
@[simp] theorem State.skipIf_stack (s : State) (c : Bool) : (s.skipIf c).stack = s.stack := rfl
@[simp] theorem State.skipIf_dt (s : State) (c : Bool) : (s.skipIf c).dt = s.dt := rfl
@[simp] theorem State.skipIf_st (s : State) (c : Bool) : (s.skipIf c).st = s.st := rfl
@[simp] theorem State.skipIf_key (s : State) (c : Bool) : (s.skipIf c).key = s.key := rfl
@[simp] theorem State.skipIf_fb (s : State) (c : Bool) : (s.skipIf c).fb = s.fb := rfl
@[simp] theorem State.skipIf_redraw (s : State) (c : Bool) : (s.skipIf c).redraw = s.redraw := rfl
@[simp] theorem State.skipIf_flt (s : State) (c : Bool) : (s.skipIf c).flt = s.flt := rfl
@[simp] theorem State.skipIf_source (s : State) (c : Bool) : (s.skipIf c).source = s.source := rfl
@[simp] theorem State.skipIf_draws (s : State) (c : Bool) : (s.skipIf c).draws = s.draws := rfl
@[simp] theorem State.skipIf_reg (s : State) (c : Bool) (y : Reg) : (s.skipIf c).reg y = s.reg y := rfl

/-! setMem -/

@[simp] theorem State.setMem_mem (s : State) (m : Memory) : (s.setMem m).mem = m := rfl
@[simp] theorem State.setMem_v (s : State) (m : Memory) : (s.setMem m).v = s.v := rfl
@[simp] theorem State.setMem_i (s : State) (m : Memory) : (s.setMem m).i = s.i := rfl
@[simp] theorem State.setMem_pc (s : State) (m : Memory) : (s.setMem m).pc = s.pc := rfl
@[simp] theorem State.setMem_sp (s : State) (m : Memory) : (s.setMem m).sp = s.sp := rfl
@[simp] theorem State.setMem_stack (s : State) (m : Memory) : (s.setMem m).stack = s.stack := rfl
@[simp] theorem State.setMem_dt (s : State) (m : Memory) : (s.setMem m).dt = s.dt := rfl
@[simp] theorem State.setMem_st (s : State) (m : Memory) : (s.setMem m).st = s.st := rfl
@[simp] theorem State.setMem_key (s : State) (m : Memory) : (s.setMem m).key = s.key := rfl
@[simp] theorem State.setMem_fb (s : State) (m : Memory) : (s.setMem m).fb = s.fb := rfl
@[simp] theorem State.setMem_redraw (s : State) (m : Memory) : (s.setMem m).redraw = s.redraw := rfl
@[simp] theorem State.setMem_flt (s : State) (m : Memory) : (s.setMem m).flt = s.flt := rfl
@[simp] theorem State.setMem_source (s : State) (m : Memory) : (s.setMem m).source = s.source := rfl
@[simp] theorem State.setMem_draws (s : State) (m : Memory) : (s.setMem m).draws = s.draws := rfl
@[simp] theorem State.setMem_reg (s : State) (m : Memory) (y : Reg) : (s.setMem m).reg y = s.reg y := rfl

/-! setDt -/

@[simp] theorem State.setDt_mem (s : State) (b : Byte) : (s.setDt b).mem = s.mem := rfl
@[simp] theorem State.setDt_v (s : State) (b : Byte) : (s.setDt b).v = s.v := rfl
@[simp] theorem State.setDt_i (s : State) (b : Byte) : (s.setDt b).i = s.i := rfl
@[simp] theorem State.setDt_pc (s : State) (b : Byte) : (s.setDt b).pc = s.pc := rfl
@[simp] theorem State.setDt_sp (s : State) (b : Byte) : (s.setDt b).sp = s.sp := rfl
@[simp] theorem State.setDt_stack (s : State) (b : Byte) : (s.setDt b).stack = s.stack := rfl
@[simp] theorem State.setDt_dt (s : State) (b : Byte) : (s.setDt b).dt = b := rfl
@[simp] theorem State.setDt_st (s : State) (b : Byte) : (s.setDt b).st = s.st := rfl
@[simp] theorem State.setDt_key (s : State) (b : Byte) : (s.setDt b).key = s.key := rfl
@[simp] theorem State.setDt_fb (s : State) (b : Byte) : (s.setDt b).fb = s.fb := rfl
@[simp] theorem State.setDt_redraw (s : State) (b : Byte) : (s.setDt b).redraw = s.redraw := rfl
@[simp] theorem State.setDt_flt (s : State) (b : Byte) : (s.setDt b).flt = s.flt := rfl
@[simp] theorem State.setDt_source (s : State) (b : Byte) : (s.setDt b).source = s.source := rfl
@[simp] theorem State.setDt_draws (s : State) (b : Byte) : (s.setDt b).draws = s.draws := rfl
@[simp] theorem State.setDt_reg (s : State) (b : Byte) (y : Reg) : (s.setDt b).reg y = s.reg y := rfl

/-! setSt -/

@[simp] theorem State.setSt_mem (s : State) (b : Byte) : (s.setSt b).mem = s.mem := rfl
@[simp] theorem State.setSt_v (s : State) (b : Byte) : (s.setSt b).v = s.v := rfl
@[simp] theorem State.setSt_i (s : State) (b : Byte) : (s.setSt b).i = s.i := rfl
@[simp] theorem State.setSt_pc (s : State) (b : Byte) : (s.setSt b).pc = s.pc := rfl
@[simp] theorem State.setSt_sp (s : State) (b : Byte) : (s.setSt b).sp = s.sp := rfl
@[simp] theorem State.setSt_stack (s : State) (b : Byte) : (s.setSt b).stack = s.stack := rfl
@[simp] theorem State.setSt_dt (s : State) (b : Byte) : (s.setSt b).dt = s.dt := rfl
@[simp] theorem State.setSt_st (s : State) (b : Byte) : (s.setSt b).st = b := rfl
@[simp] theorem State.setSt_key (s : State) (b : Byte) : (s.setSt b).key = s.key := rfl
@[simp] theorem State.setSt_fb (s : State) (b : Byte) : (s.setSt b).fb = s.fb := rfl
@[simp] theorem State.setSt_redraw (s : State) (b : Byte) : (s.setSt b).redraw = s.redraw := rfl
@[simp] theorem State.setSt_flt (s : State) (b : Byte) : (s.setSt b).flt = s.flt := rfl
@[simp] theorem State.setSt_source (s : State) (b : Byte) : (s.setSt b).source = s.source := rfl
@[simp] theorem State.setSt_draws (s : State) (b : Byte) : (s.setSt b).draws = s.draws := rfl
@[simp] theorem State.setSt_reg (s : State) (b : Byte) (y : Reg) : (s.setSt b).reg y = s.reg y := rfl

/-! show -/

@[simp] theorem State.show_mem (s : State) (d : FrameBuffer) : (s.show d).mem = s.mem := rfl
@[simp] theorem State.show_v (s : State) (d : FrameBuffer) : (s.show d).v = s.v := rfl
@[simp] theorem State.show_i (s : State) (d : FrameBuffer) : (s.show d).i = s.i := rfl
@[simp] theorem State.show_pc (s : State) (d : FrameBuffer) : (s.show d).pc = s.pc := rfl
@[simp] theorem State.show_sp (s : State) (d : FrameBuffer) : (s.show d).sp = s.sp := rfl
@[simp] theorem State.show_stack (s : State) (d : FrameBuffer) : (s.show d).stack = s.stack := rfl
@[simp] theorem State.show_dt (s : State) (d : FrameBuffer) : (s.show d).dt = s.dt := rfl
@[simp] theorem State.show_st (s : State) (d : FrameBuffer) : (s.show d).st = s.st := rfl
@[simp] theorem State.show_key (s : State) (d : FrameBuffer) : (s.show d).key = s.key := rfl
@[simp] theorem State.show_fb (s : State) (d : FrameBuffer) : (s.show d).fb = d := rfl
@[simp] theorem State.show_redraw (s : State) (d : FrameBuffer) : (s.show d).redraw = true := rfl
@[simp] theorem State.show_flt (s : State) (d : FrameBuffer) : (s.show d).flt = s.flt := rfl
@[simp] theorem State.show_source (s : State) (d : FrameBuffer) : (s.show d).source = s.source := rfl
@[simp] theorem State.show_draws (s : State) (d : FrameBuffer) : (s.show d).draws = s.draws := rfl
@[simp] theorem State.show_reg (s : State) (d : FrameBuffer) (y : Reg) : (s.show d).reg y = s.reg y := rfl

/-! setResultAndFlag -/

@[simp] theorem State.setResultAndFlag_mem (s : State) (x : Reg) (b : Byte) (c : Bool) :
    (s.setResultAndFlag x b c).mem = s.mem := rfl
@[simp] theorem State.setResultAndFlag_i (s : State) (x : Reg) (b : Byte) (c : Bool) :
    (s.setResultAndFlag x b c).i = s.i := rfl
@[simp] theorem State.setResultAndFlag_pc (s : State) (x : Reg) (b : Byte) (c : Bool) :
    (s.setResultAndFlag x b c).pc = s.pc := rfl
@[simp] theorem State.setResultAndFlag_sp (s : State) (x : Reg) (b : Byte) (c : Bool) :
    (s.setResultAndFlag x b c).sp = s.sp := rfl
@[simp] theorem State.setResultAndFlag_stack (s : State) (x : Reg) (b : Byte) (c : Bool) :
    (s.setResultAndFlag x b c).stack = s.stack := rfl
@[simp] theorem State.setResultAndFlag_dt (s : State) (x : Reg) (b : Byte) (c : Bool) :
    (s.setResultAndFlag x b c).dt = s.dt := rfl
@[simp] theorem State.setResultAndFlag_st (s : State) (x : Reg) (b : Byte) (c : Bool) :
    (s.setResultAndFlag x b c).st = s.st := rfl
@[simp] theorem State.setResultAndFlag_key (s : State) (x : Reg) (b : Byte) (c : Bool) :
    (s.setResultAndFlag x b c).key = s.key := rfl
@[simp] theorem State.setResultAndFlag_fb (s : State) (x : Reg) (b : Byte) (c : Bool) :
    (s.setResultAndFlag x b c).fb = s.fb := rfl
@[simp] theorem State.setResultAndFlag_redraw (s : State) (x : Reg) (b : Byte) (c : Bool) :
    (s.setResultAndFlag x b c).redraw = s.redraw := rfl
@[simp] theorem State.setResultAndFlag_flt (s : State) (x : Reg) (b : Byte) (c : Bool) :
    (s.setResultAndFlag x b c).flt = s.flt := rfl
@[simp] theorem State.setResultAndFlag_source (s : State) (x : Reg) (b : Byte) (c : Bool) :
    (s.setResultAndFlag x b c).source = s.source := rfl
@[simp] theorem State.setResultAndFlag_draws (s : State) (x : Reg) (b : Byte) (c : Bool) :
    (s.setResultAndFlag x b c).draws = s.draws := rfl

end Sys2Proof.Machine
end

