-- ==== Sys2Proof/Laws/Ops.lean ====
section
/-! SUPPORT. What each shared operation of Machine/Ops.lean, Operands.lean and Flags.lean can do, said once. -/

namespace Sys2Proof.Machine

/-! Registers -/

@[simp] theorem State.reg_setReg_same (s : State) (x : Reg) (b : Byte) : (s.setReg x b).reg x = b := by
  simp [State.reg]

theorem State.reg_setReg_other (s : State) (x y : Reg) (b : Byte) (h : y ≠ x) : (s.setReg x b).reg y = s.reg y := by
  have : x.toNat ≠ y.toNat := fun e => h (BitVec.eq_of_toNat_eq e.symm)
  simp [State.reg, State.setReg, this]

/-- A register after a write: the byte written, or what it was. -/
theorem State.reg_setReg (s : State) (x y : Reg) (b : Byte) :
    (s.setReg x b).reg y = if y = x then b else s.reg y := by
  split
  · next h => rw [h, State.reg_setReg_same]
  · next h => exact State.reg_setReg_other s x y b h

/-- A register after a result and its flag: the flag in VF whatever x is (R133), the result in x, else what it was. -/
theorem State.reg_setResultAndFlag (s : State) (x y : Reg) (b : Byte) (c : Bool) :
    (s.setResultAndFlag x b c).reg y = if y = VF then flagByte c else if y = x then b else s.reg y := by
  unfold State.setResultAndFlag
  rw [State.reg_setReg, State.reg_setReg]

/-! Flags: each as the comparison of exact numbers the spec gives -/

theorem flagByte_eq_one (c : Bool) : flagByte c = 1 ↔ c = true := by cases c <;> decide

theorem flagByte_eq_zero (c : Bool) : flagByte c = 0 ↔ c = false := by cases c <;> decide

theorem carry_iff (a b : Byte) : carry a b = true ↔ 255 < a.toNat + b.toNat := by simp [carry]

theorem noBorrow_iff (a b : Byte) : noBorrow a b = true ↔ b.toNat ≤ a.toNat := by simp [noBorrow]

/-! The bounds check and raising a fault -/

/-- `CheckRange` of R8 in its own words. -/
theorem checkRange_iff (a len : Nat) : checkRange a len = true ↔ len = 0 ∨ a + len - 1 ≤ 0xFFF := by
  simp [checkRange]

theorem checkRange_eq_false_iff (a len : Nat) : checkRange a len = false ↔ 0 < len ∧ 0xFFF < a + len - 1 := by
  rw [← Bool.not_eq_true, checkRange_iff]
  omega

/-- What raising a fault leaves: the latch set, and nothing else changed (R213, R214). -/
theorem State.raise_next (s t : State) (k : Fault) (fop : Option Word) (a : Word) (h : s.raise k fop a = .next t) :
    t = { s with flt := some ⟨k, s.pc, fop, a⟩ } := by
  cases h
  rfl

/-- All that a checked access can do: the whole effect within range, or the fault with I as its address (R52). -/
theorem State.checked_cases (s : State) (ins : Instr) (len : Nat) (t : State) :
    (checkRange s.i.toNat len = true ∧ s.checked ins len t = .next t) ∨
    (checkRange s.i.toNat len = false ∧
      s.checked ins len t = .next { s with flt := some ⟨.outOfBoundsAddress, s.pc, some (encode ins), s.i⟩ }) := by
  unfold State.checked
  cases h : checkRange s.i.toNat len
  · exact .inr ⟨rfl, rfl⟩
  · exact .inl ⟨rfl, rfl⟩

/-! The stack -/

/-- A push on a full stack gives nothing (R102). -/
theorem State.push_full (s : State) (a : Word) (h : s.sp.val = 16) : s.push a = none := by
  simp [State.push, h]

/-- A push below 16 entries writes entry SP and adds one to SP (R102). -/
theorem State.push_spec (s : State) (a : Word) (h : s.sp.val < 16) :
    ∃ t, s.push a = some t ∧ t = { s with stack := t.stack, sp := t.sp } ∧ t.sp.val = s.sp.val + 1 ∧
      ∀ k : Fin 16, t.stack[k.val] = if k.val = s.sp.val then a else s.stack[k.val] := by
  refine ⟨_, by simp only [State.push, h, dif_pos]; rfl, rfl, rfl, fun k => ?_⟩
  simp [Vector.getElem_set, eq_comm]

/-- A pop of an empty stack gives nothing (R101). -/
theorem State.pop_empty (s : State) (h : s.sp.val = 0) : s.pop = none := by
  simp [State.pop, h]

/-- A pop reads entry SP - 1, takes one from SP, and clears nothing (R27, R101). -/
theorem State.pop_spec (s : State) (h : s.sp.val ≠ 0) :
    ∃ t, s.pop = some (s.stack[s.sp.val - 1]'(by have := s.sp.isLt; omega), t) ∧
      t = { s with sp := t.sp } ∧ t.sp.val = s.sp.val - 1 := by
  exact ⟨_, by simp only [State.pop, h, dif_neg, not_false_eq_true]; rfl, rfl, rfl⟩

/-! Operands -/

theorem addrOperand_toNat (nnn : Addr) : (addrOperand nnn).toNat = nnn.toNat := by
  have := nnn.isLt
  simp only [addrOperand, BitVec.toNat_setWidth]
  omega

theorem wideReg_toNat (s : State) (x : Reg) : (wideReg s x).toNat = (s.reg x).toNat := by
  have := (s.reg x).isLt
  simp only [wideReg, BitVec.toNat_setWidth]
  omega

theorem keyOperand_toNat (s : State) (x : Reg) : (keyOperand s x).toNat = (s.reg x).toNat % 16 := by
  simp [keyOperand]

/-- The glyph address never passes sixteen bits (R152). -/
theorem glyphAddress_toNat (s : State) (x : Reg) : (glyphAddress s x).toNat = 0x050 + 5 * (s.reg x).toNat := by
  have := (s.reg x).isLt
  simp only [glyphAddress, Config.fontBase, Config.glyphHeight, BitVec.toNat_ofNat]
  omega

theorem length_regsUpTo (s : State) (x : Reg) : (regsUpTo s x).length = x.toNat + 1 := by
  have := x.isLt
  simp [regsUpTo]
  omega

/-- The k-th stored register is V[k] (R154). -/
theorem getElem_regsUpTo (s : State) (x y : Reg) (h : y.toNat ≤ x.toNat) :
    (regsUpTo s x)[y.toNat]'(by rw [length_regsUpTo]; omega) = s.reg y := by
  simp [regsUpTo, State.reg]

/-- A register after the load: the byte at a + its number for the first n, else what it was (R155). -/
theorem getElem_loadRegs (m : Memory) (a : Nat) (v : Vector Byte 16) (n k : Nat) (hk : k < 16) :
    (loadRegs m a v n)[k] = if k < n then m.read (a + k) else v[k] := by
  induction n with
  | zero => simp [loadRegs]
  | succ n ih =>
    simp only [loadRegs, Vector.getElem_setIfInBounds, ih]
    by_cases h : n = k
    · simp [h]
    · rw [if_neg h]
      by_cases h2 : k < n
      · rw [if_pos h2, if_pos (by omega)]
      · rw [if_neg h2, if_neg (by omega)]

theorem mem_keyNumbers (k : Nibble) : k ∈ keyNumbers := by revert k; decide

theorem pairwise_keyNumbers : keyNumbers.Pairwise fun j k => j.toNat < k.toNat := by decide

/-- No key is found exactly while none is pressed (R192). -/
theorem lowestKeyDown_eq_none (s : State) : lowestKeyDown s = none ↔ ∀ k, s.keyDown k = false := by
  simp [lowestKeyDown, List.find?_eq_none, mem_keyNumbers]

/-- A key that is found is pressed, and no lower one is (R192). -/
theorem lowestKeyDown_spec (s : State) (k : Nibble) (h : lowestKeyDown s = some k) :
    s.keyDown k = true ∧ ∀ j : Nibble, j.toNat < k.toNat → s.keyDown j = false := by
  obtain ⟨hk, below, above, hsplit, hbelow⟩ := List.find?_eq_some_iff_append.mp h
  refine ⟨hk, fun j hj => ?_⟩
  have hmem := mem_keyNumbers j
  have hpw := pairwise_keyNumbers
  rw [hsplit] at hmem hpw
  rcases List.mem_append.mp hmem with hm | hm
  · simpa using hbelow j hm
  · rcases List.mem_cons.mp hm with rfl | hm
    · omega
    · have := (List.pairwise_cons.mp (List.pairwise_append.mp hpw).2.1).1 j hm
      omega

/-- The key found is the lowest one pressed, and the only one found (R192). -/
theorem lowestKeyDown_eq_some (s : State) (k : Nibble) :
    lowestKeyDown s = some k ↔ s.keyDown k = true ∧ ∀ j : Nibble, j.toNat < k.toNat → s.keyDown j = false := by
  refine ⟨lowestKeyDown_spec s k, fun ⟨hk, hlow⟩ => ?_⟩
  cases hf : lowestKeyDown s with
  | none => rw [(lowestKeyDown_eq_none s).mp hf k] at hk; cases hk
  | some j =>
    obtain ⟨hj, hjlow⟩ := lowestKeyDown_spec s j hf
    rcases Nat.lt_trichotomy j.toNat k.toNat with h | h | h
    · rw [hlow j h] at hj; cases hj
    · rw [BitVec.eq_of_toNat_eq h]
    · rw [hjlow k h] at hk; cases hk

end Sys2Proof.Machine
end

