-- ==== Sys2Proof/Laws/Step.lean ====
section
/-! SUPPORT. What a step can do, said once (30_encoding.md R77, R78): the cycle's four cases, and for an instruction either
its effect with the latch as it was, or a fault that it raises. -/

namespace Sys2Proof.Machine

/-- The fetch in the words of R78: within the bound it gives the two bytes, big-endian. -/
theorem State.fetch_some (s : State) (h : s.pc.toNat ≤ 0xFFE) :
    s.fetch = some (wordOfBytes (s.mem.read s.pc.toNat) (s.mem.read (s.pc.toNat + 1))) := by
  rw [State.fetch, if_pos]
  rw [checkRange_iff]
  omega

theorem State.fetch_none (s : State) (h : 0xFFE < s.pc.toNat) : s.fetch = none := by
  rw [State.fetch, if_neg]
  rw [Bool.not_eq_true, checkRange_eq_false_iff]
  omega

theorem State.fetch_eq_none_iff (s : State) : s.fetch = none ↔ 0xFFE < s.pc.toNat := by
  refine ⟨fun h => ?_, s.fetch_none⟩
  by_contra hle
  rw [s.fetch_some (by omega)] at h
  cases h

/-- Everything a step can do: nothing on a faulted core, a fault of the fetch, a fault of the decode, or the instruction. -/
theorem step_cases (s : State) :
    (s.flt ≠ none ∧ step s = .next s) ∨
    (s.flt = none ∧ s.fetch = none ∧
      step s = .next { s with flt := some ⟨.outOfBoundsAddress, s.pc, none, s.pc⟩ }) ∨
    (s.flt = none ∧ ∃ op, s.fetch = some op ∧ decode op = .error (.unsupportedOpcode op) ∧
      step s = .next { s with flt := some ⟨.unsupportedOpcode, s.pc, some op, s.pc⟩ }) ∨
    (s.flt = none ∧ ∃ op ins, s.fetch = some op ∧ decode op = .ok ins ∧ step s = exec ins s) := by
  unfold step cycle
  cases hf : s.flt with
  | some r => exact .inl ⟨by simp, rfl⟩
  | none =>
    cases hop : s.fetch with
    | none => exact .inr (.inl ⟨rfl, rfl, rfl⟩)
    | some op =>
      cases hd : decode op with
      | error e =>
        have := decode_error op e hd
        subst this
        exact .inr (.inr (.inl ⟨rfl, op, rfl, hd, by simp only [hd]; rfl⟩))
      | ok ins => exact .inr (.inr (.inr ⟨rfl, op, ins, rfl, hd, by simp only [hd]⟩))

/-! The meanings with a case of their own -/

theorem exec_ret_empty (s : State) (h : s.pop = none) : exec .ret s = s.raiseIn .ret .stackUnderflow s.pc := by
  simp only [exec, execRet, h]

theorem exec_ret_popped (s t : State) (a : Word) (h : s.pop = some (a, t)) : exec .ret s = .next (t.setPc a) := by
  simp only [exec, execRet, h]

theorem exec_call_full (nnn : Addr) (s : State) (h : s.push (s.pc + 2#16) = none) :
    exec (.call nnn) s = s.raiseIn (.call nnn) .stackOverflow s.pc := by
  simp only [exec, execCall, h]

theorem exec_call_pushed (nnn : Addr) (s t : State) (h : s.push (s.pc + 2#16) = some t) :
    exec (.call nnn) s = .next (t.setPc (addrOperand nnn)) := by
  simp only [exec, execCall, h]

theorem exec_ldVK_waits (x : Reg) (s : State) (h : lowestKeyDown s = none) : exec (.ldVK x) s = .next s := by
  simp only [exec, execLdVK, h]

theorem exec_ldVK_pressed (x : Reg) (s : State) (k : Nibble) (h : lowestKeyDown s = some k) :
    exec (.ldVK x) s = .next (s.setReg x (k.setWidth 8)).advance := by
  simp only [exec, execLdVK, h]

theorem next_inj {s t : State} (h : (Host.Outcome.next s : Result) = .next t) : s = t := by
  cases h
  rfl

/-! The four instructions that check a range: within it, their effect; past it, the fault with I as its address (R52) -/

theorem exec_drw_within (x y : Reg) (n : Nibble) (s : State) (h : n.toNat = 0 ∨ s.i.toNat + n.toNat - 1 ≤ 0xFFF) :
    exec (.drw x y n) s =
      let d := drawSprite s.fb (s.reg x).toNat (s.reg y).toNat (s.mem.readBytes s.i.toNat n.toNat)
      .next ((s.show d.1).setReg VF (flagByte d.2)).advance :=
  if_pos ((checkRange_iff _ _).mpr h)

theorem exec_drw_beyond (x y : Reg) (n : Nibble) (s : State) (h : 0 < n.toNat ∧ 0xFFF < s.i.toNat + n.toNat - 1) :
    exec (.drw x y n) s = s.raiseIn (.drw x y n) .outOfBoundsAddress s.i :=
  if_neg (by rw [Bool.not_eq_true]; exact (checkRange_eq_false_iff _ _).mpr h)

theorem exec_ldB_within (x : Reg) (s : State) (h : s.i.toNat + 2 ≤ 0xFFF) :
    exec (.ldB x) s = .next (s.setMem (s.mem.writeBytes s.i.toNat (decimalDigits (s.reg x)))).advance :=
  if_pos ((checkRange_iff _ _).mpr (.inr h))

theorem exec_ldB_beyond (x : Reg) (s : State) (h : 0xFFF < s.i.toNat + 2) :
    exec (.ldB x) s = s.raiseIn (.ldB x) .outOfBoundsAddress s.i :=
  if_neg (by rw [Bool.not_eq_true]; exact (checkRange_eq_false_iff _ _).mpr ⟨by omega, h⟩)

theorem exec_stRegs_within (x : Reg) (s : State) (h : s.i.toNat + x.toNat ≤ 0xFFF) :
    exec (.stRegs x) s = .next (s.setMem (s.mem.writeBytes s.i.toNat (regsUpTo s x))).advance :=
  if_pos ((checkRange_iff _ _).mpr (.inr h))

theorem exec_stRegs_beyond (x : Reg) (s : State) (h : 0xFFF < s.i.toNat + x.toNat) :
    exec (.stRegs x) s = s.raiseIn (.stRegs x) .outOfBoundsAddress s.i :=
  if_neg (by rw [Bool.not_eq_true]; exact (checkRange_eq_false_iff _ _).mpr ⟨by omega, h⟩)

theorem exec_ldRegs_within (x : Reg) (s : State) (h : s.i.toNat + x.toNat ≤ 0xFFF) :
    exec (.ldRegs x) s =
      .next { s with v := loadRegs s.mem s.i.toNat s.v (x.toNat + 1), pc := s.pc + 2#16 } :=
  if_pos ((checkRange_iff _ _).mpr (.inr h))

theorem exec_ldRegs_beyond (x : Reg) (s : State) (h : 0xFFF < s.i.toNat + x.toNat) :
    exec (.ldRegs x) s = s.raiseIn (.ldRegs x) .outOfBoundsAddress s.i :=
  if_neg (by rw [Bool.not_eq_true]; exact (checkRange_eq_false_iff _ _).mpr ⟨by omega, h⟩)

/-- Everything an instruction can do with the latch: leave it as it was, or raise one fault and do nothing else; the fault's
address is I for a memory range out of bounds, and pc for the others (60_exceptions.md R210). -/
theorem exec_cases (ins : Instr) (s : State) :
    (∃ t, exec ins s = .next t ∧ t.flt = s.flt) ∨
    ∃ k, exec ins s = s.raiseIn ins k (if k = .outOfBoundsAddress then s.i else s.pc) := by
  have hchecked : ∀ len t, exec ins s = s.checked ins len t → t.flt = s.flt →
      (∃ t, exec ins s = .next t ∧ t.flt = s.flt) ∨
      ∃ k, exec ins s = s.raiseIn ins k (if k = .outOfBoundsAddress then s.i else s.pc) := by
    intro len t he ht
    rcases s.checked_cases ins len t with ⟨_, h⟩ | ⟨_, h⟩
    · exact .inl ⟨t, he.trans h, ht⟩
    · exact .inr ⟨.outOfBoundsAddress, he.trans h⟩
  cases ins with
  | sys nnn => exact .inr ⟨.unsupportedOpcode, rfl⟩
  | ret =>
    by_cases h : s.sp.val = 0
    · exact .inr ⟨.stackUnderflow, exec_ret_empty s (s.pop_empty h)⟩
    · obtain ⟨t, hpop, ht, -⟩ := s.pop_spec h
      exact .inl ⟨_, exec_ret_popped s t _ hpop, by rw [State.setPc_flt, ht]⟩
  | call nnn =>
    by_cases h : s.sp.val < 16
    · obtain ⟨t, hpush, ht, -⟩ := s.push_spec (s.pc + 2#16) h
      exact .inl ⟨_, exec_call_pushed nnn s t hpush, by rw [State.setPc_flt, ht]⟩
    · exact .inr ⟨.stackOverflow, exec_call_full nnn s (s.push_full _ (by have := s.sp.isLt; omega))⟩
  | ldVK x =>
    cases h : lowestKeyDown s with
    | none => exact .inl ⟨s, exec_ldVK_waits x s h, rfl⟩
    | some k => exact .inl ⟨_, exec_ldVK_pressed x s k h, rfl⟩
  | drw x y n => exact hchecked _ _ rfl rfl
  | ldB x => exact hchecked _ _ rfl rfl
  | stRegs x => exact hchecked _ _ rfl rfl
  | ldRegs x => exact hchecked _ _ rfl rfl
  | _ => exact .inl ⟨_, rfl, rfl⟩

end Sys2Proof.Machine
end

