-- ==== Sys2Proof/Laws/Transactions.lean ====
section
/-! SUPPORT. What the transactions and `withFetchWord` do, said once. -/

namespace Sys2Proof.Machine

/-- A step that answers a next state is a transaction to it, with the result read from its latch (R77). -/
theorem transact_step (s t : State) (h : step s = .next t) : transact .step s = (t, stepResult t) := by
  show stepTransaction s = _
  unfold stepTransaction
  rw [h]

theorem stepResult_fault (s : State) (r : FaultRecord) (h : s.flt = some r) : stepResult s = .fault r.kind := by
  unfold stepResult
  rw [h]

theorem stepResult_ok (s : State) (h : s.flt = none) : stepResult s = .ok := by
  unfold stepResult
  rw [h]

/-- A load that fits writes the image at 0x200 (R252). -/
theorem loadImage_fits (img : List Byte) (s : State) (h : img.length ≤ 3584) :
    loadImage img s = .next (s.setMem (s.mem.writeBytes 0x200 img)) := by
  rw [loadImage, if_neg]
  simp only [Config.progBase, Config.memSize]
  omega

/-- A load that does not fit changes nothing (R252). -/
theorem loadImage_tooLarge (img : List Byte) (s : State) (h : 3584 < img.length) :
    loadImage img s = .fault .imageTooLarge := by
  rw [loadImage, if_pos]
  simp only [Config.progBase, Config.memSize]
  omega

theorem transact_loadImage_fits (img : List Byte) (s : State) (h : img.length ≤ 3584) :
    transact (.loadImage img) s = (s.setMem (s.mem.writeBytes 0x200 img), .ok) := by
  show loadTransaction img s = _
  unfold loadTransaction
  rw [loadImage_fits img s h]

theorem transact_loadImage_tooLarge (img : List Byte) (s : State) (h : 3584 < img.length) :
    transact (.loadImage img) s = (s, .fault .imageTooLarge) := by
  show loadTransaction img s = _
  unfold loadTransaction
  rw [loadImage_tooLarge img s h]

/-- A tick of one timer: one less, stopping at 0 (R220). -/
theorem countDown_toNat (b : Byte) : (countDown b).toNat = b.toNat - 1 := by revert b; decide

/-- A run of two lists of transactions is the one after the other (R230). -/
theorem runTransactions_append (ts us : List Transaction) (s : State) :
    runTransactions (ts ++ us) s = runTransactions us (runTransactions ts s) := by
  induction ts generalizing s with
  | nil => rfl
  | cons t ts ih => exact ih _

/-- A property that every transaction keeps holds after every run. -/
theorem runTransactions_keeps (P : State → Prop) (h : ∀ t s, P s → P (transact t s).1) (ts : List Transaction) (s : State)
    (hs : P s) : P (runTransactions ts s) := by
  induction ts generalizing s with
  | nil => exact hs
  | cons t ts ih => exact ih _ (h t s hs)

/-- An endless run is, at each position, the finite run of its beginning (R230). -/
theorem EndlessRun.stateAt_eq (ts : EndlessRun) (s : State) (n : Nat) :
    EndlessRun.stateAt ts s n = runTransactions (EndlessRun.beginning ts n) s := by
  induction n with
  | zero => rfl
  | succ n ih => rw [EndlessRun.stateAt, EndlessRun.beginning, runTransactions_append, ih]; rfl

/-- A property that every transaction keeps holds all along an endless run. -/
theorem EndlessRun.stateAt_keeps (P : State → Prop) (h : ∀ t s, P s → P (transact t s).1) (ts : EndlessRun) (s : State)
    (hs : P s) (n : Nat) : P (EndlessRun.stateAt ts s n) :=
  EndlessRun.stateAt_eq ts s n ▸ runTransactions_keeps P h _ s hs

/-! withFetchWord -/

theorem fetchablePc_le (s : State) : (fetchablePc s).toNat ≤ 0xFFE := by
  unfold fetchablePc
  split
  · next h =>
    rw [checkRange_iff] at h
    omega
  · decide

/-- The word that is placed is the word the next step fetches. -/
theorem fetch_placeInstruction (s : State) (op : Word) : (placeInstruction s op).fetch = some op := by
  rw [State.fetch_some _ (fetchablePc_le s)]
  simp only [placeInstruction, Memory.read_writeBytes]
  rw [dif_pos (by simp), dif_pos (by simp)]
  simp

/-- The step after `withFetchWord` is the instruction of the word. -/
theorem step_withFetchWord (s : State) (nbits w : Nat) (ins : Instr) (h : decodeTableWord nbits w = some ins) :
    step (s.withFetchWord nbits w) = exec ins (s.withFetchWord nbits w) := by
  have hd : decode (BitVec.ofNat 16 (w % 2 ^ nbits)) = .ok ins := by
    unfold decodeTableWord decodeBytes at h
    simp only [wordOfBytes_bytes] at h
    cases hd : decode (BitVec.ofNat 16 (w % 2 ^ nbits)) with
    | error e => simp [hd] at h
    | ok i => simpa [hd] using h
  have hf : (s.withFetchWord nbits w).fetch = some (BitVec.ofNat 16 (w % 2 ^ nbits)) := fetch_placeInstruction s _
  have hn : (s.withFetchWord nbits w).flt = none := rfl
  unfold step cycle
  simp only [hn, hf, hd]

end Sys2Proof.Machine
end

