-- ==== Sys2Proof/Laws/Instances.lean ====
section
/-! SUPPORT. What a call to one of several cores does to each of them, said once, and that no instruction and no transaction
changes which `RND` a core draws from (60_exceptions.md R231; log 6). -/

namespace Sys2Proof.Machine

/-- The core at each position after a call: the transaction's state at its own position, and any other as it was. -/
theorem Cores.getElem?_call (c : Call) (cores : Cores) (j : Nat) :
    (Cores.call c cores)[j]? =
      (cores[j]?).map fun s => if c.core = j then (transact c.transaction s).1 else s := by
  unfold Cores.call
  rw [List.getElem?_modify]
  rfl

/-- The transactions that go to a core, after one more call. -/
theorem callsTo_cons (j : Nat) (c : Call) (calls : List Call) :
    callsTo j (c :: calls) = if c.core = j then c.transaction :: callsTo j calls else callsTo j calls := rfl

/-- An instruction keeps the core's `RND`. -/
theorem exec_source (ins : Instr) (s t : State) (h : exec ins s = .next t) : t.source = s.source := by
  have hchecked : ∀ len u, exec ins s = s.checked ins len u → u.source = s.source → t.source = s.source := by
    intro len u he hu
    rcases s.checked_cases ins len u with ⟨_, hc⟩ | ⟨_, hc⟩
    · cases next_inj ((he.trans hc).symm.trans h)
      exact hu
    · cases next_inj ((he.trans hc).symm.trans h)
      rfl
  cases ins with
  | ret =>
    by_cases hs : s.sp.val = 0
    · rw [exec_ret_empty s (s.pop_empty hs)] at h
      cases next_inj h
      rfl
    · obtain ⟨u, hpop, hu, -⟩ := s.pop_spec hs
      rw [exec_ret_popped s u _ hpop] at h
      cases next_inj h
      rw [State.setPc_source, hu]
  | call nnn =>
    by_cases hs : s.sp.val < 16
    · obtain ⟨u, hpush, hu, -⟩ := s.push_spec (s.pc + 2#16) hs
      rw [exec_call_pushed nnn s u hpush] at h
      cases next_inj h
      rw [State.setPc_source, hu]
    · rw [exec_call_full nnn s (s.push_full _ (by have := s.sp.isLt; omega))] at h
      cases next_inj h
      rfl
  | ldVK x =>
    cases hk : lowestKeyDown s with
    | none =>
      rw [exec_ldVK_waits x s hk] at h
      cases next_inj h
      rfl
    | some k =>
      rw [exec_ldVK_pressed x s k hk] at h
      cases next_inj h
      rfl
  | drw x y n => exact hchecked _ _ rfl rfl
  | ldB x => exact hchecked _ _ rfl rfl
  | stRegs x => exact hchecked _ _ rfl rfl
  | ldRegs x => exact hchecked _ _ rfl rfl
  | _ =>
    cases next_inj h
    rfl

/-- A step keeps the core's `RND`. -/
theorem step_source (s t : State) (h : step s = .next t) : t.source = s.source := by
  rcases step_cases s with ⟨-, he⟩ | ⟨-, -, he⟩ | ⟨-, op, -, -, he⟩ | ⟨-, op, ins, -, -, he⟩
  · cases next_inj (he.symm.trans h)
    rfl
  · cases next_inj (he.symm.trans h)
    rfl
  · cases next_inj (he.symm.trans h)
    rfl
  · exact exec_source ins s t (he.symm.trans h)

/-- A transaction keeps the core's `RND`. -/
theorem transact_source (tr : Transaction) (s : State) : (transact tr s).1.source = s.source := by
  cases tr with
  | step =>
    show (stepTransaction s).1.source = s.source
    unfold stepTransaction
    cases h : step s with
    | next t => exact step_source s t h
    | fault k => rfl
    | refused r => rfl
  | loadImage img =>
    by_cases h : img.length ≤ 3584
    · rw [transact_loadImage_fits img s h]
      rfl
    · rw [transact_loadImage_tooLarge img s (by omega)]
  | _ => rfl

end Sys2Proof.Machine
end

