-- ==== Sys2Proof/Laws/PerInstr.lean ====
section
/-! SUPPORT. Statements for every instruction, one lemma per constructor. EncodeMatchesTable: the encoder's word matches the
match and mask columns of the instruction's row in 30_encoding.md R74. -/

namespace Sys2Proof.Laws.EncodeMatchesTable

/-- "An opcode `op` matches a row when `op & mask == match`" (R74), of the instruction's word and row. -/
def Statement (i : Instr) : Prop := encode i &&& (tableRow i).2 = (tableRow i).1

theorem mask_formNNN (h : Nibble) (nnn : Addr) : formNNN h nnn &&& 0xF000#16 = formNNN h 0 := by
  refine BitVec.eq_of_getLsbD_eq fun k hk => ?_
  rw [BitVec.getLsbD_and, getLsbD_formNNN, getLsbD_formNNN]
  interval_cases k <;> simp

theorem mask_formXKK (h x : Nibble) (kk : Byte) : formXKK h x kk &&& 0xF000#16 = formXKK h 0 0 := by
  refine BitVec.eq_of_getLsbD_eq fun k hk => ?_
  rw [BitVec.getLsbD_and, getLsbD_formXKK, getLsbD_formXKK]
  interval_cases k <;> simp

theorem mask_formXS (h x : Nibble) (op : Byte) : formXKK h x op &&& 0xF0FF#16 = formXKK h 0 op := by
  refine BitVec.eq_of_getLsbD_eq fun k hk => ?_
  rw [BitVec.getLsbD_and, getLsbD_formXKK, getLsbD_formXKK]
  interval_cases k <;> simp

theorem mask_formXYN (h x y n : Nibble) : formXYN h x y n &&& 0xF000#16 = formXYN h 0 0 0 := by
  refine BitVec.eq_of_getLsbD_eq fun k hk => ?_
  rw [BitVec.getLsbD_and, getLsbD_formXYN, getLsbD_formXYN]
  interval_cases k <;> simp

theorem mask_formXYS (h x y op : Nibble) : formXYN h x y op &&& 0xF00F#16 = formXYN h 0 0 op := by
  refine BitVec.eq_of_getLsbD_eq fun k hk => ?_
  rw [BitVec.getLsbD_and, getLsbD_formXYN, getLsbD_formXYN]
  interval_cases k <;> simp

theorem sys (nnn : Addr) : Statement (.sys nnn) := mask_formNNN _ _
theorem cls : Statement .cls := by unfold Statement; decide
theorem ret : Statement .ret := by unfold Statement; decide
theorem jp (nnn : Addr) : Statement (.jp nnn) := mask_formNNN _ _
theorem call (nnn : Addr) : Statement (.call nnn) := mask_formNNN _ _
theorem seK (x : Reg) (kk : Byte) : Statement (.seK x kk) := mask_formXKK _ _ _
theorem sneK (x : Reg) (kk : Byte) : Statement (.sneK x kk) := mask_formXKK _ _ _
theorem seV (x y : Reg) : Statement (.seV x y) := mask_formXYS _ _ _ _
theorem ldK (x : Reg) (kk : Byte) : Statement (.ldK x kk) := mask_formXKK _ _ _
theorem addK (x : Reg) (kk : Byte) : Statement (.addK x kk) := mask_formXKK _ _ _
theorem ldV (x y : Reg) : Statement (.ldV x y) := mask_formXYS _ _ _ _
theorem orV (x y : Reg) : Statement (.orV x y) := mask_formXYS _ _ _ _
theorem andV (x y : Reg) : Statement (.andV x y) := mask_formXYS _ _ _ _
theorem xorV (x y : Reg) : Statement (.xorV x y) := mask_formXYS _ _ _ _
theorem addV (x y : Reg) : Statement (.addV x y) := mask_formXYS _ _ _ _
theorem sub (x y : Reg) : Statement (.sub x y) := mask_formXYS _ _ _ _
theorem shr (x y : Reg) : Statement (.shr x y) := mask_formXYS _ _ _ _
theorem subn (x y : Reg) : Statement (.subn x y) := mask_formXYS _ _ _ _
theorem shl (x y : Reg) : Statement (.shl x y) := mask_formXYS _ _ _ _
theorem sneV (x y : Reg) : Statement (.sneV x y) := mask_formXYS _ _ _ _
theorem ldI (nnn : Addr) : Statement (.ldI nnn) := mask_formNNN _ _
theorem jpV0 (nnn : Addr) : Statement (.jpV0 nnn) := mask_formNNN _ _
theorem rnd (x : Reg) (kk : Byte) : Statement (.rnd x kk) := mask_formXKK _ _ _
theorem drw (x y : Reg) (n : Nibble) : Statement (.drw x y n) := mask_formXYN _ _ _ _
theorem skp (x : Reg) : Statement (.skp x) := mask_formXS _ _ _
theorem sknp (x : Reg) : Statement (.sknp x) := mask_formXS _ _ _
theorem ldVDT (x : Reg) : Statement (.ldVDT x) := mask_formXS _ _ _
theorem ldVK (x : Reg) : Statement (.ldVK x) := mask_formXS _ _ _
theorem ldDTV (x : Reg) : Statement (.ldDTV x) := mask_formXS _ _ _
theorem ldSTV (x : Reg) : Statement (.ldSTV x) := mask_formXS _ _ _
theorem addIV (x : Reg) : Statement (.addIV x) := mask_formXS _ _ _
theorem ldF (x : Reg) : Statement (.ldF x) := mask_formXS _ _ _
theorem ldB (x : Reg) : Statement (.ldB x) := mask_formXS _ _ _
theorem stRegs (x : Reg) : Statement (.stRegs x) := mask_formXS _ _ _
theorem ldRegs (x : Reg) : Statement (.ldRegs x) := mask_formXS _ _ _

end Sys2Proof.Laws.EncodeMatchesTable
end

