-- ==== Sys2Proof/Tests/Slice0.lean ====
section
/-! SUPPORT. The model's own tests. Words are written out from the formats and patterns of 30_encoding.md R71 and R74; the
expected results are the vectors of spec/95_test_vectors.md, whose ids the comments give, or the rules' examples. -/

namespace Sys2Proof.Tests

open Sys2Proof Sys2Proof.Machine

/-! ## WellFormed: the two terms that stand for no opcode, and their neighbours -/

theorem test_wellFormed_refuses_sys_of_cls : (Instr.sys 0x0E0#12).wellFormed = false := by decide
theorem test_wellFormed_refuses_sys_of_ret : (Instr.sys 0x0EE#12).wellFormed = false := by decide
theorem test_wellFormed_takes_the_other_sys :
    (Instr.sys 0x0E1#12).wellFormed = true ∧ (Instr.sys 0xFFF#12).wellFormed = true ∧ (Instr.sys 0x0ED#12).wellFormed = true := by
  decide

/-! ## Decode: a word for every constructor, bit by bit -/

theorem test_decode_sys : decode 0b0000000100100011#16 = .ok (.sys 0x123#12) := by decide
theorem test_decode_cls : decode 0b0000000011100000#16 = .ok .cls := by decide
theorem test_decode_ret : decode 0b0000000011101110#16 = .ok .ret := by decide
theorem test_decode_jp : decode 0b0001001000110100#16 = .ok (.jp 0x234#12) := by decide
theorem test_decode_call : decode 0b0010001000010000#16 = .ok (.call 0x210#12) := by decide
theorem test_decode_seK : decode 0b0011001100010000#16 = .ok (.seK 0x3#4 0x10#8) := by decide
theorem test_decode_sneK : decode 0b0100001100010000#16 = .ok (.sneK 0x3#4 0x10#8) := by decide
theorem test_decode_seV : decode 0b0101000100100000#16 = .ok (.seV 0x1#4 0x2#4) := by decide
theorem test_decode_ldK : decode 0b0110101000111110#16 = .ok (.ldK 0xA#4 0x3E#8) := by decide
theorem test_decode_addK : decode 0b0111000111111111#16 = .ok (.addK 0x1#4 0xFF#8) := by decide
theorem test_decode_ldV : decode 0b1000110111110000#16 = .ok (.ldV 0xD#4 0xF#4) := by decide
theorem test_decode_orV : decode 0b1000000100100001#16 = .ok (.orV 0x1#4 0x2#4) := by decide
theorem test_decode_andV : decode 0b1000000100100010#16 = .ok (.andV 0x1#4 0x2#4) := by decide
theorem test_decode_xorV : decode 0b1000000100100011#16 = .ok (.xorV 0x1#4 0x2#4) := by decide
theorem test_decode_addV : decode 0b1000000100100100#16 = .ok (.addV 0x1#4 0x2#4) := by decide
theorem test_decode_sub : decode 0b1000000100100101#16 = .ok (.sub 0x1#4 0x2#4) := by decide
theorem test_decode_shr : decode 0b1000001101010110#16 = .ok (.shr 0x3#4 0x5#4) := by decide
theorem test_decode_subn : decode 0b1000000100100111#16 = .ok (.subn 0x1#4 0x2#4) := by decide
theorem test_decode_shl : decode 0b1000001100001110#16 = .ok (.shl 0x3#4 0x0#4) := by decide
theorem test_decode_sneV : decode 0b1001000100100000#16 = .ok (.sneV 0x1#4 0x2#4) := by decide
theorem test_decode_ldI : decode 0b1010001100000000#16 = .ok (.ldI 0x300#12) := by decide
theorem test_decode_jpV0 : decode 0b1011010100000000#16 = .ok (.jpV0 0x500#12) := by decide
theorem test_decode_rnd : decode 0b1100010111110000#16 = .ok (.rnd 0x5#4 0xF0#8) := by decide
theorem test_decode_drw : decode 0b1101101010110101#16 = .ok (.drw 0xA#4 0xB#4 0x5#4) := by decide
theorem test_decode_skp : decode 0b1110000110011110#16 = .ok (.skp 0x1#4) := by decide
theorem test_decode_sknp : decode 0b1110000110100001#16 = .ok (.sknp 0x1#4) := by decide
theorem test_decode_ldVDT : decode 0b1111000100000111#16 = .ok (.ldVDT 0x1#4) := by decide
theorem test_decode_ldVK : decode 0b1111001100001010#16 = .ok (.ldVK 0x3#4) := by decide
theorem test_decode_ldDTV : decode 0b1111000000010101#16 = .ok (.ldDTV 0x0#4) := by decide
theorem test_decode_ldSTV : decode 0b1111001000011000#16 = .ok (.ldSTV 0x2#4) := by decide
theorem test_decode_addIV : decode 0b1111001000011110#16 = .ok (.addIV 0x2#4) := by decide
theorem test_decode_ldF : decode 0b1111010100101001#16 = .ok (.ldF 0x5#4) := by decide
theorem test_decode_ldB : decode 0b1111000000110011#16 = .ok (.ldB 0x0#4) := by decide
theorem test_decode_stRegs : decode 0b1111001001010101#16 = .ok (.stRegs 0x2#4) := by decide
theorem test_decode_ldRegs : decode 0b1111001001100101#16 = .ok (.ldRegs 0x2#4) := by decide

/-- The don't-care bits of R73: any y in SHR and SHL. -/
theorem test_decode_shifts_take_any_y :
    decode 0x83F6#16 = .ok (.shr 0x3#4 0xF#4) ∧ decode 0x83FE#16 = .ok (.shl 0x3#4 0xF#4) := by decide

/-- Illegal words of T16, A31, K6, E8 and R76, each rejected by name. -/
theorem test_decode_refuses_illegal_words :
    ∀ w ∈ [0x5121, 0x512F, 0x9121, 0x8008, 0x8009, 0x800A, 0x800B, 0x800C, 0x800D, 0x800F, 0xE09F, 0xE0A2, 0xE000, 0xF0FF, 0xFFFF,
        0xF002, 0xF056],
      decode (BitVec.ofNat 16 w) = .error (.unsupportedOpcode (BitVec.ofNat 16 w)) := by decide

/-- Two bytes, the first the high byte (R55); one byte is no instruction (R70). -/
theorem test_decodeBytes :
    decodeBytes [0x12#8, 0x34#8, 0x56#8] = .ok (.jp 0x234#12, [0x56#8]) ∧ decodeBytes [0x12#8] = .error (.truncated 1) ∧
    decodeBytes [] = .error (.truncated 0) := by decide

theorem test_decodeTableWord : decodeTableWord 16 0xDAB5 = some (.drw 0xA#4 0xB#4 0x5#4) ∧ decodeTableWord 16 0x5121 = none := by
  decide

/-! ## One step -/

/-- The state after one step that runs a word. -/
def after (s : State) (op : Nat) : State :=
  match step (s.withFetchWord 16 op) with
  | .next t => t
  | .fault _ => s
  | .refused _ => s

/-- The state after reset with some registers set. -/
def withRegs : List (Reg × Byte) → State
  | [] => State.reset
  | (x, b) :: rest => (withRegs rest).setReg x b

/-- The byte at 0x300 and I there, with some registers set. -/
def withSprite (b : Byte) (regs : List (Reg × Byte)) : State :=
  { withRegs regs with mem := Memory.write [] 0x300 b, i := 0x300 }

def lit (s : State) (col : Fin 64) (row : Fin 32) : Bool := FrameBuffer.pixel s.fb row col

/-- A state with one pixel lit. -/
def withPixel (col : Fin 64) (row : Fin 32) (s : State) : State := { s with fb := FrameBuffer.toggle s.fb row col }

/-- T21 -/
theorem test_sys : (after State.reset 0x0123).flt = some ⟨.unsupportedOpcode, 0x200, some 0x0123, 0x200⟩ := by decide
/-- D1 -/
theorem test_cls : lit (after (withPixel 5 7 State.reset) 0x00E0) 5 7 = false ∧ (after State.reset 0x00E0).redraw = true := by decide
/-- R101's example -/
theorem test_ret :
    let t := after { State.reset with sp := 1, stack := State.reset.stack.set 0 0x206 } 0x00EE
    t.pc = 0x206 ∧ t.sp = 0 ∧ t.stack[0] = 0x206 := by decide
/-- F1 -/
theorem test_ret_underflow : (after State.reset 0x00EE).flt = some ⟨.stackUnderflow, 0x200, some 0x00EE, 0x200⟩ := by decide
/-- T1 -/
theorem test_jp : (after State.reset 0x1234).pc = 0x234 := by decide
/-- T4 -/
theorem test_call :
    let t := after { State.reset with pc := 0x204 } 0x2210
    t.stack[0] = 0x206 ∧ t.sp = 1 ∧ t.pc = 0x210 := by decide
/-- E4b -/
theorem test_call_overflow :
    let t := after { State.reset with sp := 16 } 0x2300
    t.flt = some ⟨.stackOverflow, 0x200, some 0x2300, 0x200⟩ ∧ t.pc = 0x200 ∧ t.sp = 16 := by decide
/-- R104's example -/
theorem test_seK : (after (withRegs [(3, 0x10)]) 0x3310).pc = 0x204 ∧ (after (withRegs [(3, 0x11)]) 0x3310).pc = 0x202 := by decide
/-- T9, T10 -/
theorem test_sneK : (after (withRegs [(3, 0x10)]) 0x4310).pc = 0x202 ∧ (after (withRegs [(3, 0x11)]) 0x4310).pc = 0x204 := by decide
/-- T11, T12 -/
theorem test_seV :
    (after (withRegs [(1, 0x7F), (2, 0x7F)]) 0x5120).pc = 0x204 ∧ (after (withRegs [(1, 0x7F), (2, 0x80)]) 0x5120).pc = 0x202 := by
  decide
/-- T14, T15 -/
theorem test_sneV : (after (withRegs [(1, 1), (2, 2)]) 0x9120).pc = 0x204 ∧ (after State.reset 0x9110).pc = 0x202 := by decide
/-- A1 -/
theorem test_ldK : (after State.reset 0x6A3E).reg 0xA = 0x3E := by decide
/-- E2 -/
theorem test_addK_wraps :
    let t := after (withRegs [(2, 0xFA), (0xF, 1)]) 0x720A
    t.reg 2 = 0x04 ∧ t.reg 0xF = 1 ∧ t.pc = 0x202 := by decide
/-- A4 -/
theorem test_ldV : (after (withRegs [(1, 0x12), (0xF, 0x55)]) 0x8010).reg 0 = 0x12 := by decide
/-- A5 -/
theorem test_orV :
    let t := after (withRegs [(0, 0xF0), (1, 0x0F), (0xF, 0x55)]) 0x8011
    t.reg 0 = 0xFF ∧ t.reg 0xF = 0x55 := by decide
/-- A6 -/
theorem test_andV : (after (withRegs [(0, 0xF3), (1, 0x3F)]) 0x8012).reg 0 = 0x33 := by decide
/-- A7 -/
theorem test_xorV : (after (withRegs [(0, 0xF3), (1, 0x3F)]) 0x8013).reg 0 = 0xCC := by decide
/-- A9 -/
theorem test_addV_carries :
    let t := after (withRegs [(1, 0xFF), (2, 0x01)]) 0x8124
    t.reg 1 = 0x00 ∧ t.reg 0xF = 1 := by decide
/-- A12: with x = 0xF the flag stays. -/
theorem test_addV_to_vf : (after (withRegs [(0xF, 0x05), (1, 0xFE)]) 0x8F14).reg 0xF = 1 := by decide
/-- A15 -/
theorem test_sub_borrows :
    let t := after (withRegs [(1, 0x05), (2, 0x0A)]) 0x8125
    t.reg 1 = 0xFB ∧ t.reg 0xF = 0 := by decide
/-- A16 -/
theorem test_sub_equal :
    let t := after (withRegs [(1, 0x07), (2, 0x07)]) 0x8125
    t.reg 1 = 0x00 ∧ t.reg 0xF = 1 := by decide
/-- A21: V5 is not read. -/
theorem test_shr :
    let t := after (withRegs [(3, 0x01), (5, 0xFF)]) 0x8356
    t.reg 3 = 0x00 ∧ t.reg 0xF = 1 := by decide
/-- A23 -/
theorem test_subn :
    let t := after (withRegs [(1, 0x05), (2, 0x0A)]) 0x8127
    t.reg 1 = 0x05 ∧ t.reg 0xF = 1 := by decide
/-- A25 -/
theorem test_subn_borrows :
    let t := after (withRegs [(1, 0x10), (2, 0x0F)]) 0x8127
    t.reg 1 = 0xFF ∧ t.reg 0xF = 0 := by decide
/-- A27 -/
theorem test_shl :
    let t := after (withRegs [(3, 0x81)]) 0x830E
    t.reg 3 = 0x02 ∧ t.reg 0xF = 1 := by decide
/-- M1 -/
theorem test_ldI : (after State.reset 0xA300).i = 0x300 := by decide
/-- T18: no wrap and no mask. -/
theorem test_jpV0 : (after (withRegs [(0, 0xFF)]) 0xBFFF).pc = 0x10FE := by decide
/-- A33: whatever the draw. -/
theorem test_rnd_masked : (after (withRegs [(0, 0x99)]) 0xC000).reg 0 = 0x00 := by
  show Config.randomByte 0 0 &&& 0x00#8 = 0x00#8
  exact BitVec.and_zero
/-- D4 and D5: a lit pixel collides only under a set sprite bit. -/
theorem test_drw_collision :
    let t := after (withPixel 0 0 (withSprite 0x80 [])) 0xD011
    let u := after (withPixel 1 0 (withSprite 0x80 [])) 0xD011
    lit t 0 0 = false ∧ t.reg 0xF = 1 ∧ lit u 0 0 = true ∧ lit u 1 0 = true ∧ u.reg 0xF = 0 := by decide
/-- D6, D7, D9: bit 0 is the last column, both coordinates wrap, and VF as a coordinate is its old value. -/
theorem test_drw_places :
    lit (after (withSprite 0x01 [(0, 0x38)]) 0xD011) 63 0 = true ∧
    lit (after (withSprite 0x80 [(0, 0x40), (1, 0x28)]) 0xD011) 0 8 = true ∧
    lit (after (withSprite 0x80 [(0xF, 0x05), (0, 0x02)]) 0xDF01) 5 2 = true := by decide
/-- K1, K2 -/
theorem test_skp :
    (after (setKey 5 true (withRegs [(1, 0x05)])) 0xE19E).pc = 0x204 ∧ (after (withRegs [(1, 0x05)]) 0xE19E).pc = 0x202 := by decide
/-- K4, K5 -/
theorem test_sknp :
    (after (withRegs [(1, 0x05)]) 0xE1A1).pc = 0x204 ∧ (after (setKey 5 true (withRegs [(1, 0x05)])) 0xE1A1).pc = 0x202 := by decide
/-- K10 -/
theorem test_ldVDT : (after { State.reset with dt := 0x3C } 0xF107).reg 1 = 0x3C := by decide
/-- K7 -/
theorem test_ldVK_waits :
    let t := after { State.reset with pc := 0x220 } 0xF30A
    t.pc = 0x220 ∧ t.reg 3 = 0 ∧ t.flt = none := by decide
/-- K9 -/
theorem test_ldVK_takes_the_lowest :
    let t := after (setKey 0x2 true (setKey 0xC true State.reset)) 0xF30A
    t.reg 3 = 0x02 ∧ t.pc = 0x202 := by decide
/-- K11 -/
theorem test_ldDTV : (after (withRegs [(0, 0x05)]) 0xF015).dt = 5 := by decide
/-- K12 -/
theorem test_ldSTV : (after (withRegs [(2, 0x1E)]) 0xF218).st = 0x1E := by decide
/-- M4, M5 -/
theorem test_addIV :
    (after { withRegs [(2, 0x01)] with i := 0xFFF } 0xF21E).i = 0x1000 ∧
    (after { withRegs [(2, 0x01)] with i := 0xFFFF } 0xF21E).i = 0x0000 := by decide
/-- M7, M9 -/
theorem test_ldF : (after (withRegs [(5, 0x0B)]) 0xF529).i = 0x087 ∧ (after (withRegs [(0, 0x10)]) 0xF029).i = 0x0A0 := by decide
/-- M12 -/
theorem test_ldB_at_the_top :
    (after { withRegs [(0, 0x7B)] with i := 0xFFD } 0xF033).mem.readBytes 0xFFD 3 = [0x01, 0x02, 0x03] := by decide
/-- M13 -/
theorem test_ldB_beyond :
    let t := after { withRegs [(0, 0x7B)] with i := 0xFFE } 0xF033
    t.flt = some ⟨.outOfBoundsAddress, 0x200, some 0xF033, 0xFFE⟩ ∧ t.mem.readBytes 0xFFE 2 = [0, 0] := by decide
/-- M14 -/
theorem test_stRegs :
    let t := after { withRegs [(0, 1), (1, 2), (2, 3), (3, 4)] with i := 0x400 } 0xF255
    t.mem.readBytes 0x400 4 = [1, 2, 3, 0] ∧ t.i = 0x400 := by decide
/-- M16 -/
theorem test_stRegs_beyond :
    let t := after { withRegs [(0, 1)] with i := 0xFFF } 0xF155
    t.flt = some ⟨.outOfBoundsAddress, 0x200, some 0xF155, 0xFFF⟩ ∧ t.mem.read 0xFFF = 0 := by decide
/-- M19 -/
theorem test_ldRegs :
    let t := after { State.reset with mem := Memory.writeBytes [] 0x300 [2, 5, 4, 9], i := 0x300 } 0xF265
    t.reg 0 = 2 ∧ t.reg 1 = 5 ∧ t.reg 2 = 4 ∧ t.reg 3 = 0 ∧ t.i = 0x300 := by decide
/-- M21 -/
theorem test_ldRegs_beyond :
    (after { State.reset with i := 0xFF1 } 0xFF65).flt = some ⟨.outOfBoundsAddress, 0x200, some 0xFF65, 0xFF1⟩ := by decide

/-! ## The cycle and the host -/

/-- T23: a fetch above the bound has no opcode. -/
theorem test_fetch_above :
    transact .step { State.reset with pc := 0x1000 } =
      ({ State.reset with pc := 0x1000, flt := some ⟨.outOfBoundsAddress, 0x1000, none, 0x1000⟩ }, .fault .outOfBoundsAddress) := by
  decide
/-- E8 -/
theorem test_illegal_word : (after State.reset 0x5121).flt = some ⟨.unsupportedOpcode, 0x200, some 0x5121, 0x200⟩ := by decide
/-- H10: reset and a step, with nothing loaded. -/
theorem test_reset_runs_zeroed_memory :
    transact .step State.reset =
      ({ State.reset with flt := some ⟨.unsupportedOpcode, 0x200, some 0x0000, 0x200⟩ }, .fault .unsupportedOpcode) := by decide
/-- H2, H1 -/
theorem test_tick :
    (transact .tick60Hz { State.reset with dt := 3, st := 1 }).1 = { State.reset with dt := 2, st := 0 } ∧
    (transact .tick60Hz State.reset).1 = State.reset := by decide
/-- H3 -/
theorem test_consumesRedrawFlag :
    transact .consumesRedrawFlag { State.reset with redraw := true } = (State.reset, .flag true) ∧
    transact .consumesRedrawFlag State.reset = (State.reset, .flag false) := by decide
/-- H4 -/
theorem test_setKey :
    ((transact (.setKey 4 true) State.reset).1.keyDown 4 = true) ∧
    (runTransactions [.setKey 4 true, .setKey 4 false] State.reset).keyDown 4 = false := by decide
/-- H9: the self-jump runs, and the run has completed at 0x200. -/
theorem test_loadImage :
    runTransactions [.reset, .loadImage [0x12, 0x00], .step] State.reset =
      { State.reset with mem := [(0x200, 0x12)] } := by decide
/-- H11 -/
theorem test_memPort : transact (.memRead 0x300) (transact (.memWrite 0x300 0xAB) State.reset).1 =
    ({ State.reset with mem := [(0x300, 0xAB)] }, .byte 0xAB) := by decide
/-- H7, H6 -/
theorem test_faulted :
    let s := { State.reset with dt := 2, flt := some ⟨.unsupportedOpcode, 0x200, some 0, 0x200⟩ }
    (transact .reset s).1 = State.reset ∧ (transact .tick60Hz s).1.dt = 1 ∧ (transact .step s).1 = s := by decide
/-- R258: the ticks and key calls of a run, by the gaps between its steps. -/
theorem test_premises :
    Ticks [1, 2, 0] [.tick60Hz, .step, .tick60Hz, .setKey 3 true, .tick60Hz, .step] ∧
    Keys [[], [(3, true)], []] [.tick60Hz, .step, .tick60Hz, .setKey 3 true, .tick60Hz, .step] := by
  unfold Ticks Keys
  decide

/-- R230: an endless run of ticks, three transactions in. -/
theorem test_endless_run :
    (EndlessRun.stateAt (fun _ => .tick60Hz) { State.reset with dt := 5, st := 2 } 3) = { State.reset with dt := 2 } := by decide
/-- R231: a call to one core leaves the other alone. -/
theorem test_call_to_one_core :
    Cores.call ⟨1, .setKey 4 true⟩ (Cores.construct 2) = [State.construct 0, setKey 4 true (State.construct 1)] := by decide

/-! ## Witnesses: for each statement that has hypotheses, states and operands that meet them all, at the edges of its clauses -/

/-- A state far from reset: memory, registers, the stack, the timers, a key and the display in use. At pc lies `2210`. -/
def busy : State where
  mem := [(0x200, 0x22), (0x201, 0x10), (0x300, 0x80)]
  v := #v[0x05, 0x20, 0xFF, 0x7F, 0x00, 0x01, 0x02, 0x03, 0x04, 0x05, 0x06, 0x07, 0x08, 0x09, 0x0A, 0x0B]
  i := 0x0300
  pc := 0x0200
  sp := 1
  stack := State.reset.stack.set 0 0x0206
  dt := 3
  st := 1
  key := State.reset.key.set 5 true
  fb := State.reset.fb.set 0 0x8000000000000001#64
  redraw := true
  flt := none
  source := 2
  draws := 7

/-- A state that has faulted. -/
def faulted : State := { busy with flt := some ⟨.unsupportedOpcode, 0x200, some 0x5121, 0x200⟩ }

theorem busy_inv : StateInv busy := ⟨by decide, by decide, by decide, by simp [busy], by simp [busy]⟩

/-- The invariant holds of a faulted core too. -/
theorem faulted_inv : StateInv faulted := ⟨by decide, by decide, by decide, by simp [faulted, busy], by simp [faulted, busy]⟩

/-- The largest pc and return address that the invariant allows. -/
theorem inv_at_its_bounds : StateInv { State.reset with pc := 0x10FE, stack := State.reset.stack.set 15 0x1000 } :=
  ⟨by decide, by decide, by decide, by simp [State.reset], by simp [State.reset]⟩

/-- For ResetLeavesEveryElementAtItsResetValue: the addresses beside the font. -/
theorem witness_ResetLeavesEveryElementAtItsResetValue :
    (0x04F < 0x050 ∨ 0x09F < 0x04F) ∧ (0x0A0 < 0x050 ∨ 0x09F < 0x0A0) := by decide

/-- For EveryStepKeepsTheInvariant: the step is a call. -/
theorem witness_EveryStepKeepsTheInvariant : StateInv busy ∧ ∃ t, step busy = .next t ∧ t.pc = 0x210 :=
  ⟨busy_inv, _, rfl, by decide⟩

/-- For EveryRunOfTransactionsKeepsTheInvariant. -/
theorem witness_EveryRunOfTransactionsKeepsTheInvariant : StateInv busy ∧ StateInv faulted := ⟨busy_inv, faulted_inv⟩

/-- For CanonicalMemoriesThatReadAlikeAreEqual: two bytes written in two orders. -/
theorem witness_CanonicalMemoriesThatReadAlikeAreEqual :
    let m := Memory.write (Memory.write [] 0x301 2) 0xFFF 1
    let m' := Memory.write (Memory.write [] 0xFFF 1) 0x301 2
    m.wf ∧ m'.wf ∧ (∀ a < 0x1000, m.read a = m'.read a) ∧ m ≠ [] := by
  have h : Memory.write (Memory.write [] 0x301 2) 0xFFF 1 = Memory.write (Memory.write [] 0xFFF 1) 0x301 2 := by decide
  exact ⟨by decide, by decide, fun a _ => by rw [h], by decide⟩

/-- For DecodeReadsBackEveryWellFormedInstruction. -/
theorem witness_DecodeReadsBackEveryWellFormedInstruction :
    (Instr.drw 0xA#4 0xB#4 0x5#4).wellFormed = true ∧ (Instr.sys 0x0E1#12).wellFormed = true := by decide

/-- For EveryInstructionIsTwoBytes. -/
theorem witness_EveryInstructionIsTwoBytes :
    (Instr.shl 0xF#4 0xF#4).wellFormed = true ∧
    decodeBytes [0xDA#8, 0xB5#8, 0x00#8] = .ok (.drw 0xA#4 0xB#4 0x5#4, [0x00#8]) := by decide

/-- For EveryDecodedWordIsTheWordOfItsInstruction. -/
theorem witness_EveryDecodedWordIsTheWordOfItsInstruction : decode 0x8356#16 = .ok (.shr 0x3#4 0x5#4) := by decide

/-- For StepRunsTheDecodedInstruction: the last pc that can be fetched, and an odd one. -/
theorem witness_StepRunsTheDecodedInstruction :
    ∀ pc ∈ [0xFFE, 0x201], let s := { State.reset with mem := Memory.writeBytes [] pc [0x1F, 0xFE], pc := BitVec.ofNat 16 pc }
      s.flt = none ∧ s.pc.toNat ≤ 0xFFE ∧
      decode (BitVec.ofNat 16 (256 * (s.mem.read s.pc.toNat).toNat + (s.mem.read (s.pc.toNat + 1)).toNat)) =
        .ok (.jp 0xFFE#12) := by decide

/-- For FetchAboveTheBoundLatchesTheFault. -/
theorem witness_FetchAboveTheBoundLatchesTheFault :
    let s := { busy with pc := 0xFFF }
    s.flt = none ∧ 0xFFE < s.pc.toNat := by decide

/-- For UnsupportedOpcodeChangesNothingElse: a word that decodes to nothing, and a SYS. -/
theorem witness_UnsupportedOpcodeChangesNothingElse :
    let s := busy.withFetchWord 16 0x5121
    let t := busy.withFetchWord 16 0x0123
    (s.flt = none ∧ s.fetch = some 0x5121#16 ∧ decode 0x5121#16 = .error (.unsupportedOpcode 0x5121#16)) ∧
    (t.flt = none ∧ t.fetch = some 0x0123#16 ∧ decode 0x0123#16 = .ok (.sys 0x123#12)) := by decide

/-- For FaultedCoreStaysFaulted. -/
theorem witness_FaultedCoreStaysFaulted : faulted.flt = some ⟨.unsupportedOpcode, 0x200, some 0x5121, 0x200⟩ := by decide

/-- For FaultingStepChangesOnlyTheLatch: a fault of the fetch, of the decode, of the stack and of a memory range. -/
theorem witness_FaultingStepChangesOnlyTheLatch :
    ∀ s ∈ [{ busy with pc := 0xFFF }, busy.withFetchWord 16 0x5121, { busy with sp := 16 },
        { busy with i := 0xFFE }.withFetchWord 16 0xF033],
      s.flt = none ∧ (transact .step s).1.flt ≠ none := by decide

/-- For StepsFaultExactlyWhenTheTaxonomySays: each kind is raised at the edge of its condition. -/
theorem witness_StepsFaultExactlyWhenTheTaxonomySays :
    StepRaises .unsupportedOpcode (busy.withFetchWord 16 0x0000) ∧ StepRaises .stackOverflow { busy with sp := 16 } ∧
    StepRaises .stackUnderflow ({ busy with sp := 0 }.withFetchWord 16 0x00EE) ∧
    StepRaises .outOfBoundsAddress { busy with pc := 0xFFF } ∧
    StepRaises .outOfBoundsAddress ({ busy with i := 0xFFF }.withFetchWord 16 0xD012) ∧
    StepRaises .outOfBoundsAddress ({ busy with i := 0xFFE }.withFetchWord 16 0xF033) ∧
    StepRaises .outOfBoundsAddress ({ busy with i := 0xFFF }.withFetchWord 16 0xF155) ∧
    StepRaises .outOfBoundsAddress ({ busy with i := 0xFFF }.withFetchWord 16 0xF165) :=
  ⟨⟨_, _, rfl, rfl, rfl⟩, ⟨_, _, rfl, rfl, rfl⟩, ⟨_, _, rfl, rfl, rfl⟩, ⟨_, _, rfl, rfl, rfl⟩, ⟨_, _, rfl, rfl, rfl⟩,
    ⟨_, _, rfl, rfl, rfl⟩, ⟨_, _, rfl, rfl, rfl⟩, ⟨_, _, rfl, rfl, rfl⟩⟩

/-- The state an instruction leaves. -/
def ran (i : Instr) (s : State) : State :=
  match exec i s with
  | .next t => t
  | .fault _ => s
  | .refused _ => s

/-- For EachElementHasOnlyItsWriters: a writer of each element does change it. -/
theorem witness_EachElementHasOnlyItsWriters :
    (∃ t, exec (.ldRegs 0x0#4) busy = .next t ∧ t.reg 0x0#4 ≠ busy.reg 0x0#4) ∧
    (∃ t, exec (.sub 0x1#4 0x0#4) busy = .next t ∧ t.reg 0x1#4 ≠ busy.reg 0x1#4 ∧ t.reg VF ≠ busy.reg VF) ∧
    (∃ t, exec (.skp 0x0#4) busy = .next t ∧ t.pc = busy.pc + 4#16) ∧
    (∃ t, exec (.jp 0xFFF#12) busy = .next t ∧ t.pc ≠ busy.pc + 2#16 ∧ t.pc ≠ busy.pc + 4#16) ∧
    (∃ t, exec (.ldVK 0x0#4) State.reset = .next t ∧ t = State.reset) ∧
    (∃ t, exec .cls busy = .next t ∧ t.fb ≠ busy.fb) ∧
    (∃ t, exec (.drw 0#4 1#4 1#4) { busy with redraw := false } = .next t ∧ t.redraw ≠ false) ∧
    (∃ t, exec (.ldDTV 1#4) busy = .next t ∧ t.dt ≠ busy.dt) ∧ (∃ t, exec (.ldSTV 1#4) busy = .next t ∧ t.st ≠ busy.st) ∧
    (∃ t, exec (.addIV 1#4) busy = .next t ∧ t.i ≠ busy.i) ∧ (∃ t, exec .ret busy = .next t ∧ t.sp ≠ busy.sp) ∧
    (∃ t, exec (.call 0x300#12) busy = .next t ∧ t.stack ≠ busy.stack) ∧
    (∃ t, exec (.stRegs 0#4) busy = .next t ∧ t.mem ≠ busy.mem) ∧
    (∃ t, exec (.rnd 0#4 0#8) busy = .next t ∧ t.draws ≠ busy.draws) ∧
    (∃ t, exec (.sys 0x123#12) busy = .next t ∧ t.flt ≠ busy.flt) :=
  ⟨⟨_, rfl, by decide⟩, ⟨_, rfl, by decide, by decide⟩, ⟨_, rfl, by decide⟩, ⟨_, rfl, by decide, by decide⟩, ⟨_, rfl, by decide⟩,
    ⟨_, rfl, by decide⟩, ⟨_, rfl, by decide⟩, ⟨_, rfl, by decide⟩, ⟨_, rfl, by decide⟩, ⟨_, rfl, by decide⟩, ⟨_, rfl, by decide⟩,
    ⟨_, rfl, by decide⟩, ⟨_, rfl, by decide⟩, ⟨_, rfl, by decide⟩, ⟨_, rfl, by decide⟩⟩

/-- For VFIsWrittenOnlyByItsWriters: as a flag, and as a destination. -/
theorem witness_VFIsWrittenOnlyByItsWriters :
    (∃ t, exec (.addV 0#4 1#4) busy = .next t ∧ t.reg VF ≠ busy.reg VF) ∧
    (∃ t, exec (.ldK VF 0x77#8) busy = .next t ∧ t.reg VF ≠ busy.reg VF) := ⟨⟨_, rfl, by decide⟩, ⟨_, rfl, by decide⟩⟩

/-- For StepsAloneNeverMoveTimersOrKeys: a step that writes the delay timer while REDRAW is set. -/
theorem witness_StepsAloneNeverMoveTimersOrKeys :
    ∃ t, step (busy.withFetchWord 16 0xF115) = .next t ∧ (busy.withFetchWord 16 0xF115).redraw = true ∧ t.dt ≠ busy.dt :=
  ⟨_, rfl, by decide, by decide⟩

/-- For StepsNeverReadSoundRedrawOrStaleEntries: two states that differ in all three. -/
theorem witness_StepsNeverReadSoundRedrawOrStaleEntries :
    let s' := { busy with st := 9, redraw := false, stack := busy.stack.set 1 0x0999 }
    SameButUnread busy s' ∧ busy.source = s'.source ∧ busy.draws = s'.draws ∧ busy ≠ s' ∧ ∃ t, step busy = .next t := by
  exact ⟨⟨rfl, by decide⟩, by decide, by decide, by decide, _, rfl⟩

/-- For CallPushesAndJumps and ReturnPopsIntoThePc: the last push and the first overflow, the last pop and the first
underflow. -/
theorem witness_CallPushesAndJumps : ({ busy with sp := 15 } : State).sp.val < 16 ∧ ({ busy with sp := 16 } : State).sp.val = 16 := by
  decide

theorem witness_ReturnPopsIntoThePc : busy.sp.val ≠ 0 ∧ State.reset.sp.val = 0 := by decide

/-- For ReturnUndoesItsCall: the return happens in a state that has moved on. -/
theorem witness_ReturnUndoesItsCall :
    ∃ t u, busy.sp.val < 16 ∧ exec (.call 0x210#12) busy = .next t ∧ u = ran (.ldK 0#4 0x77#8) t ∧ u.stack = t.stack ∧ u.sp = t.sp :=
  ⟨_, _, by decide, rfl, rfl, by decide, by decide⟩

/-- For ACompletedRunStaysWhereItIs. -/
theorem witness_ACompletedRunStaysWhereItIs :
    CompletesAt 0x200#12 (busy.withFetchWord 16 0x1200) ∧ CompletesAt 0xFFE#12 ({ busy with pc := 0xFFE }.withFetchWord 16 0x1FFE) :=
  ⟨⟨by decide, by decide, by decide⟩, by decide, by decide, by decide⟩

/-- For BcdStoresThreeDigits, RegisterDumpStoresV0ToVx and RegisterLoadReadsV0ToVx: the last range that fits, and the first
that does not. -/
theorem witness_BcdStoresThreeDigits : { busy with i := 0xFFD }.i.toNat + 2 ≤ 0xFFF ∧ 0xFFF < { busy with i := 0xFFE }.i.toNat + 2 := by decide

theorem witness_RegisterDumpStoresV0ToVx :
    { busy with i := 0xFF0 }.i.toNat + (0xF#4).toNat ≤ 0xFFF ∧ { busy with i := 0xFFF }.i.toNat + (0x0#4).toNat ≤ 0xFFF ∧
    0xFFF < { busy with i := 0xFF1 }.i.toNat + (0xF#4).toNat ∧ 0xFFF < { busy with i := 0x1000 }.i.toNat + (0x0#4).toNat := by decide

theorem witness_RegisterLoadReadsV0ToVx :
    { busy with i := 0xFF1 }.i.toNat + (0xE#4).toNat ≤ 0xFFF ∧ 0xFFF < { busy with i := 0xFF1 }.i.toNat + (0xF#4).toNat := by decide

/-- For RegisterLoadUndoesTheDump: registers are overwritten in between. -/
theorem witness_RegisterLoadUndoesTheDump :
    ∃ t u, busy.i.toNat + (0x2#4).toNat ≤ 0xFFF ∧ exec (.stRegs 0x2#4) busy = .next t ∧ u = ran (.ldK 0#4 0x77#8) t ∧
      u.mem = t.mem ∧ u.i = busy.i ∧ u.reg 0 ≠ busy.reg 0 :=
  ⟨_, _, by decide, rfl, rfl, by decide, by decide, by decide⟩

/-- For FetchSeesTheBytesJustStored. -/
theorem witness_FetchSeesTheBytesJustStored :
    ∃ t u, busy.i.toNat + (0xF#4).toNat ≤ 0xFFF ∧ (0xE#4).toNat < (0xF#4).toNat ∧ exec (.stRegs 0xF#4) busy = .next t ∧
      u = { t with pc := 0x30E } ∧ u.mem = t.mem ∧ u.pc.toNat = busy.i.toNat + (0xE#4).toNat :=
  ⟨_, _, by decide, by decide, rfl, rfl, by decide, by decide⟩

/-- For DrawTogglesTheSpriteAndReportsCollision: no rows at the largest I, the last range that fits, the first that does
not. -/
theorem witness_DrawTogglesTheSpriteAndReportsCollision :
    ((0x0#4).toNat = 0 ∨ { busy with i := 0xFFFF }.i.toNat + (0x0#4).toNat - 1 ≤ 0xFFF) ∧
    ((0x2#4).toNat = 0 ∨ { busy with i := 0xFFE }.i.toNat + (0x2#4).toNat - 1 ≤ 0xFFF) ∧
    (0 < (0x3#4).toNat ∧ 0xFFF < { busy with i := 0xFFE }.i.toNat + (0x3#4).toNat - 1) := by decide

/-- For DrawingTwiceRestoresTheScreen: the second draw follows the first at once. -/
theorem witness_DrawingTwiceRestoresTheScreen :
    ∃ t, ((1#4).toNat = 0 ∨ busy.i.toNat + (1#4).toNat - 1 ≤ 0xFFF) ∧ exec (.drw 0#4 1#4 1#4) busy = .next t ∧ t.mem = busy.mem ∧
      t.i = busy.i ∧ t.reg 0 = busy.reg 0 ∧ t.reg 1 = busy.reg 1 ∧ t.fb ≠ busy.fb :=
  ⟨_, by decide, rfl, by decide, by decide, by decide, by decide, by decide⟩

/-- For WaitForKeyTakesTheLowestPressed: the highest key alone, the lowest of two, and none. -/
theorem witness_WaitForKeyTakesTheLowestPressed :
    (let s := setKey 0xF true State.reset;
      s.keyDown 0xF = true ∧ ∀ j : Nibble, j.toNat < (0xF#4).toNat → s.keyDown j = false) ∧
    (let s := setKey 0x2 true (setKey 0xC true State.reset);
      s.keyDown 0x2 = true ∧ ∀ j : Nibble, j.toNat < (0x2#4).toNat → s.keyDown j = false) ∧
    ∀ k, State.reset.keyDown k = false := by decide

/-- For LoadImageCopiesOrRefusesWhole (E9): the largest image that fits and the smallest that does not. -/
theorem witness_LoadImageCopiesOrRefusesWhole :
    (List.replicate 3584 (0x12#8 : Byte)).length ≤ 3584 ∧ 3584 < (List.replicate 3585 (0x12#8 : Byte)).length := by
  rw [List.length_replicate, List.length_replicate]
  decide

/-- For LaunchedProgramStartsAtItsFirstBytes (H9). -/
theorem witness_LaunchedProgramStartsAtItsFirstBytes :
    ∃ s, Launched [0x12, 0x00] s ∧ s.mem = [(0x200, 0x12)] := ⟨_, ⟨busy, rfl⟩, by decide⟩

/-- For NoTwoCoresShareARandomSource: two cores, and a call to each. -/
theorem witness_NoTwoCoresShareARandomSource :
    Cores.SourcesApart [busy, State.reset] ∧ Cores.construct 2 = [State.reset, State.construct 1] := by
  unfold Cores.SourcesApart
  decide

end Sys2Proof.Tests
end

section
/-! Encoding and decoding (30_encoding.md): the round trip over the word of an instruction, then over its bytes. -/

namespace Sys2Proof.Proofs

open Sys2Proof

/-! The word -/

/-- R74: rows 2 and 3 take precedence over SYS, so the word of a SYS reads back when it is neither of theirs. -/
theorem decode_encode_sys (nnn : Addr) (h : (Instr.sys nnn).wellFormed = true) :
    decode (encode (.sys nnn)) = .ok (.sys nnn) := by
  have ne_of_field (op : Word) (hn : nnn ≠ fieldNNN op) : formNNN 0x0#4 nnn ≠ op :=
    fun e => hn (by rw [← e, fieldNNN_formNNN])
  simp only [Instr.wellFormed, Bool.and_eq_true, bne_iff_ne] at h
  obtain ⟨hcls, hret⟩ := h
  simp [encode, decode, ne_of_field 0x00E0#16 hcls, ne_of_field 0x00EE#16 hret]

/-- The formats of R71 give their fields back, and the fixed bits of R74 pick the row: only the SYS rows overlap others. -/
theorem decode_encode (i : Instr) (h : i.wellFormed = true) : decode (encode i) = .ok i := by
  cases i with
  | sys nnn => exact decode_encode_sys nnn h
  | cls | ret => decide
  | _ => simp [encode, decode]

/-! The bytes -/

/-- R70: the decoder has answered exactly when it was given a word that decodes, and it hands back what follows the two
bytes of that word. -/
theorem decodeBytes_eq_ok_iff (bytes : List Byte) (i : Instr) (rest : List Byte) :
    decodeBytes bytes = .ok (i, rest) ↔
      ∃ hi lo, bytes = hi :: lo :: rest ∧ decode (wordOfBytes hi lo) = .ok i := by
  match bytes with
  | [] | [_] => simp [decodeBytes]
  | hi :: lo :: tail =>
    cases hd : decode (wordOfBytes hi lo) with
    | error e => simp [decodeBytes, hd]
    | ok j => simp [decodeBytes, hd, and_comm]

theorem decodeBytes_encodeBytes_append (i : Instr) (rest : List Byte) (h : i.wellFormed = true) :
    decodeBytes (encodeBytes i ++ rest) = .ok (i, rest) :=
  (decodeBytes_eq_ok_iff _ i rest).mpr ⟨_, _, rfl, by rw [wordOfBytes_bytes, decode_encode i h]⟩

/-- Settles O10: the round trip over the bytes from the one over the word, the length from what a success takes. -/
theorem everyInstructionIsTwoBytes : Obligations.EveryInstructionIsTwoBytes := by
  refine ⟨fun i rest h => ⟨rfl, decodeBytes_encodeBytes_append i rest h⟩, fun bytes i rest h => ?_⟩
  obtain ⟨hi, lo, rfl, -⟩ := (decodeBytes_eq_ok_iff bytes i rest).mp h
  rfl

end Sys2Proof.Proofs
end

section
/-! Control transfer (40_control.md): a jump and the skips write PC and no other part of the state. -/

namespace Sys2Proof.Proofs

open Sys2Proof Sys2Proof.Machine

theorem exec_jp (nnn : Addr) (s : State) : exec (.jp nnn) s = .next (s.setPc (addrOperand nnn)) := rfl

theorem exec_seK (x : Reg) (kk : Byte) (s : State) : exec (.seK x kk) s = .next (s.skipIf (s.reg x == kk)) := rfl

theorem exec_sneK (x : Reg) (kk : Byte) (s : State) : exec (.sneK x kk) s = .next (s.skipIf (s.reg x != kk)) := rfl

/-- A skip whose test decides `p`, with `p` as its condition (R80). -/
theorem skipIf_eq_of_iff (s : State) {c : Bool} {p : Prop} [Decidable p] (h : c = true ↔ p) :
    s.skipIf c = { s with pc := if p then s.pc + 4#16 else s.pc + 2#16 } := by
  simp only [State.skipIf, State.setPc, h]

/-- Settles O23: PC is written and nothing else, with nnn widened to sixteen bits (R103). -/
theorem jumpSetsThePc : Obligations.JumpSetsThePc := fun nnn s =>
  ⟨s.setPc (addrOperand nnn), exec_jp nnn s, rfl, addrOperand_toNat nnn⟩

/-- Settles O28: both are the shared skip, whose test decides equality in one and inequality in the other (R104, R105). -/
theorem skipsOnAnImmediate : Obligations.SkipsOnAnImmediate := by
  intro x kk s
  constructor
  · rw [exec_seK, skipIf_eq_of_iff s beq_iff_eq]
  · rw [exec_sneK, skipIf_eq_of_iff s bne_iff_ne]

end Sys2Proof.Proofs
end

section
/-! Registers and the ALU (41_register_alu.md): an instruction with a destination and no flag writes that register, moves
PC past itself, and touches no other part of the state. -/

namespace Sys2Proof.Proofs

open Sys2Proof Sys2Proof.Machine

theorem exec_ldK (x : Reg) (kk : Byte) (s : State) : exec (.ldK x kk) s = .next (s.setReg x kk).advance := rfl

theorem exec_addK (x : Reg) (kk : Byte) (s : State) :
    exec (.addK x kk) s = .next (s.setReg x (s.reg x + kk)).advance := rfl

/-- The shared effect of every such instruction, with its frame (R22, R80). -/
theorem writesReg_advance_setReg (s : State) (x : Reg) (b : Byte) : WritesReg s (s.setReg x b).advance x b :=
  ⟨rfl, s.reg_setReg_same x b, fun z hz => s.reg_setReg_other x z b hz⟩

/-- The byte of the exact sum mod 256 is the sum of the bytes. -/
theorem ofNat_toNat_add_mod (a b : Byte) : BitVec.ofNat 8 ((a.toNat + b.toNat) % 256) = a + b := by
  apply BitVec.eq_of_toNat_eq
  rw [BitVec.toNat_ofNat, BitVec.toNat_add, Nat.mod_mod]

/-- Settles O31: each writes Vx alone, the one with kk, the other with the sum that wraps (R120, R121). -/
theorem immediateLoadAndAdd : Obligations.ImmediateLoadAndAdd := by
  intro x kk s
  constructor
  · exact ⟨_, exec_ldK x kk s, writesReg_advance_setReg s x kk⟩
  · rw [ofNat_toNat_add_mod]
    exact ⟨_, exec_addK x kk s, writesReg_advance_setReg s x (s.reg x + kk)⟩

end Sys2Proof.Proofs
end

section
/-! The index register (42_index_memory.md): loading I writes I, moves PC past the instruction, and touches no other part of
the state. -/

namespace Sys2Proof.Proofs

open Sys2Proof Sys2Proof.Machine

theorem exec_ldI (nnn : Addr) (s : State) : exec (.ldI nnn) s = .next (s.setI (addrOperand nnn)).advance := rfl

/-- The effect of a write to I with the default advance, with its frame (R80). -/
theorem advance_setI (s : State) (a : Word) : (s.setI a).advance = { s with i := a, pc := s.pc + 2#16 } := rfl

/-- Settles O37: I takes nnn widened to sixteen bits, which is the same address (R150). -/
theorem setIndexLoadsTheAddress : Obligations.SetIndexLoadsTheAddress := fun nnn s =>
  ⟨(s.setI (addrOperand nnn)).advance, exec_ldI nnn s, advance_setI s (addrOperand nnn), addrOperand_toNat nnn⟩

end Sys2Proof.Proofs
end

section
/-! Keypad and timers (44_keypad_timers.md): the skips on a key write PC alone, and each timer instruction copies one byte
between Vx and a timer and moves PC past itself. -/

namespace Sys2Proof.Proofs

open Sys2Proof Sys2Proof.Machine

/-! Skips on a key -/

theorem exec_skp (x : Reg) (s : State) : exec (.skp x) s = .next (s.skipIf (s.keyDown (keyOperand s x))) := rfl

theorem exec_sknp (x : Reg) (s : State) : exec (.sknp x) s = .next (s.skipIf (!s.keyDown (keyOperand s x))) := rfl

/-- The key named by Vx is the one whose number is Vx mod 16 (R190). -/
theorem keyOperand_eq_ofNat (s : State) (x : Reg) : keyOperand s x = BitVec.ofNat 4 ((s.reg x).toNat % 16) := by
  rw [← keyOperand_toNat, BitVec.ofNat_toNat, BitVec.setWidth_eq]

/-- Settles O47: both are the shared skip, on the key of the low nibble, whose test is that it is pressed in one and that
it is not in the other (R190, R191). -/
theorem skipsOnAKey : Obligations.SkipsOnAKey := by
  intro x s
  rw [← keyOperand_eq_ofNat]
  constructor
  · rw [exec_skp, skipIf_eq_of_iff s Iff.rfl]
  · rw [exec_sknp, skipIf_eq_of_iff s (Iff.of_eq (Bool.not_eq_true' _))]

/-! Timers -/

theorem exec_ldVDT (x : Reg) (s : State) : exec (.ldVDT x) s = .next (s.setReg x s.dt).advance := rfl

theorem exec_ldDTV (x : Reg) (s : State) : exec (.ldDTV x) s = .next (s.setDt (s.reg x)).advance := rfl

theorem exec_ldSTV (x : Reg) (s : State) : exec (.ldSTV x) s = .next (s.setSt (s.reg x)).advance := rfl

/-- The effect of a write to DT with the default advance, with its frame (R80). -/
theorem advance_setDt (s : State) (b : Byte) : (s.setDt b).advance = { s with dt := b, pc := s.pc + 2#16 } := rfl

/-- The effect of a write to ST with the default advance, with its frame (R80). -/
theorem advance_setSt (s : State) (b : Byte) : (s.setSt b).advance = { s with st := b, pc := s.pc + 2#16 } := rfl

/-- Settles O49: the read writes Vx alone, as every instruction with a destination and no flag does; each write sets its
own timer (R193, R194, R195). -/
theorem timerReadsAndWrites : Obligations.TimerReadsAndWrites := by
  intro x s
  refine ⟨⟨_, exec_ldVDT x s, writesReg_advance_setReg s x s.dt⟩, ?_, ?_⟩
  · rw [exec_ldDTV, advance_setDt]
  · rw [exec_ldSTV, advance_setSt]

end Sys2Proof.Proofs
end

section
/-! The host's transactions (60_exceptions.md): the display is read out row by row, 64 bits a row, so the bit of a row and
column stands behind the whole rows above it. -/

namespace Sys2Proof.Proofs

open Sys2Proof Sys2Proof.Machine

/-- In rows of one width laid end to end, position `c` of row `r` is at index `r * n + c`. -/
theorem getElem?_flatMap_of_width {α β : Type} {n : Nat} (f : α → List β) (hf : ∀ a, (f a).length = n) {c : Nat}
    (hc : c < n) (l : List α) (r : Nat) : (l.flatMap f)[r * n + c]? = l[r]?.bind fun a => (f a)[c]? := by
  induction l generalizing r with
  | nil => simp
  | cons a l ih =>
    rw [List.flatMap_cons]
    cases r with
    | zero =>
      have hfirst : 0 * n + c < (f a).length := by rw [hf]; omega
      rw [List.getElem?_append_left hfirst]
      simp
    | succ r =>
      have hskip : (r + 1) * n + c = (f a).length + (r * n + c) := by rw [hf, Nat.succ_mul]; omega
      rw [hskip, List.getElem?_append_right (Nat.le_add_right _ _), Nat.add_sub_cancel_left, ih, List.getElem?_cons_succ]

/-- One row of the display as its 64 bits, column 0 first. -/
def rowBits (row : BitVec 64) : List Bool := (List.range 64).map row.getLsbD

theorem bits_eq_flatMap_rowBits (fb : FrameBuffer) : FrameBuffer.bits fb = fb.toList.flatMap rowBits := rfl

theorem length_rowBits (row : BitVec 64) : (rowBits row).length = 64 := by simp [rowBits]

theorem getElem?_rowBits (row : BitVec 64) (col : Fin 64) : (rowBits row)[col.val]? = some (row.getLsbD col.val) := by
  simp [rowBits]

theorem length_bits (fb : FrameBuffer) : (FrameBuffer.bits fb).length = 2048 := by
  simp [bits_eq_flatMap_rowBits, List.length_flatMap, length_rowBits]

theorem getElem?_bits (fb : FrameBuffer) (row : Fin 32) (col : Fin 64) :
    (FrameBuffer.bits fb)[row.val * 64 + col.val]? = some (FrameBuffer.pixel fb row col) := by
  have hrow : fb.toList[row.val]? = some fb[row.val] := by simp
  rw [bits_eq_flatMap_rowBits, getElem?_flatMap_of_width rowBits length_rowBits col.isLt, hrow, Option.bind_some,
    getElem?_rowBits, FrameBuffer.pixel]

theorem transact_frameBuffer (s : State) : transact .frameBuffer s = (s, .pixels (FrameBuffer.bits s.fb)) := rfl

/-- Settles O54: the transaction answers the buffer's rows end to end, 32 rows of 64 bits, and leaves the state as it was
(R223). -/
theorem frameBufferIsReadInRowMajorOrder : Obligations.FrameBufferIsReadInRowMajorOrder := fun s =>
  ⟨FrameBuffer.bits s.fb, transact_frameBuffer s, length_bits s.fb, getElem?_bits s.fb⟩

end Sys2Proof.Proofs
end

section
/-! What the decoder answers (30_encoding.md R75, R76): the instruction whose word the word is, or a rejection of a word that
lies in one of the illegal families. -/

namespace Sys2Proof.Proofs

open Sys2Proof

/-! Accepted words -/

/-- Whichever format the decoder takes a word apart by, its fields put the same word together again (R71, R74). The case
`h_k` is the decoder's row k, of the high nibble k - 1. -/
theorem encode_decode (op : Word) (i : Instr) (h : decode op = .ok i) : encode i = op := by
  have hNNN := formNNN_fields op
  have hXKK := formXKK_fields op
  have hXYN := formXYN_fields op
  simp only [decode] at h
  split at h
  case h_1 hh =>
    rw [hh] at hNNN
    split at h
    · next hcls => cases h; exact hcls.symm
    · split at h
      · next hret => cases h; exact hret.symm
      · cases h; exact hNNN
  case h_6 hh | h_10 hh =>
    rw [hh] at hXYN
    split at h
    · next hn => cases h; rw [hn] at hXYN; exact hXYN
    · cases h
  case h_9 hh =>
    rw [hh] at hXYN
    split at h <;> cases h
    all_goals next hn => rw [hn] at hXYN; exact hXYN
  case h_15 hh | h_16 hh =>
    rw [hh] at hXKK
    split at h <;> cases h
    all_goals next hkk => rw [hkk] at hXKK; exact hXKK
  case h_17 => cases h
  case h_2 hh | h_3 hh | h_11 hh | h_12 hh => cases h; rw [hh] at hNNN; exact hNNN
  case h_14 hh => cases h; rw [hh] at hXYN; exact hXYN
  all_goals next hh => cases h; rw [hh] at hXKK; exact hXKK

/-- CLS and RET take precedence over row 1, so no SYS that is decoded has their words (R74). -/
theorem wellFormed_of_decode (op : Word) (i : Instr) (h : decode op = .ok i) : i.wellFormed = true := by
  cases i with
  | sys nnn =>
    rw [← encode_decode op _ h] at h
    have hne : nnn ≠ 0x0E0#12 ∧ nnn ≠ 0x0EE#12 := by
      constructor <;> rintro rfl <;> exact absurd h (by decide)
    simpa [Instr.wellFormed] using hne
  | _ => rfl

/-- The decoder is the inverse of the encoder on the well-formed instructions. -/
theorem decode_eq_ok_iff (op : Word) (i : Instr) : decode op = .ok i ↔ encode i = op ∧ i.wellFormed = true := by
  constructor
  · exact fun h => ⟨encode_decode op i h, wellFormed_of_decode op i h⟩
  · rintro ⟨rfl, hwf⟩
    exact decode_encode i hwf

/-- Settles O6: by the formats of R71, constructor by constructor. -/
theorem decodeReadsBackEveryWellFormedInstruction : Obligations.DecodeReadsBackEveryWellFormedInstruction :=
  decode_encode

/-- Settles O7: by the rows of R74, as the decoder splits on the fields. -/
theorem everyDecodedWordIsTheWordOfItsInstruction : Obligations.EveryDecodedWordIsTheWordOfItsInstruction :=
  fun op i => (decode_eq_ok_iff op i).mp

/-! Rejected words and SYS -/

theorem fieldH_toNat (op : Word) : (fieldH op).toNat = op.toNat / 0x1000 := by
  have := op.isLt
  simp only [fieldH, BitVec.extractLsb'_toNat, Nat.shiftRight_eq_div_pow]
  omega

theorem fieldN_toNat (op : Word) : (fieldN op).toNat = op.toNat % 0x10 := by simp [fieldN]

theorem fieldKK_toNat (op : Word) : (fieldKK op).toNat = op.toNat % 0x100 := by simp [fieldKK]

/-- The illegal words of R76, family by family, on their fields. -/
def IllegalWord (op : Word) : Prop :=
  ((fieldH op).toNat = 0x5 ∧ (fieldN op).toNat ≠ 0) ∨
  ((fieldH op).toNat = 0x8 ∧ (fieldN op).toNat ∈ [0x8, 0x9, 0xA, 0xB, 0xC, 0xD, 0xF]) ∨
  ((fieldH op).toNat = 0x9 ∧ (fieldN op).toNat ≠ 0) ∨
  ((fieldH op).toNat = 0xE ∧ (fieldKK op).toNat ∉ [0x9E, 0xA1]) ∨
  ((fieldH op).toNat = 0xF ∧ (fieldKK op).toNat ∉ [0x07, 0x0A, 0x15, 0x18, 0x1E, 0x29, 0x33, 0x55, 0x65])

/-- One case for each row of the decoder, numbered as in `encode_decode`; what no row names is the last case of its family. -/
theorem decode_unsupported_iff (op : Word) : decode op = .error (.unsupportedOpcode op) ↔ IllegalWord op := by
  have hnlt := (fieldN op).isLt
  simp only [decode, IllegalWord]
  split
  case h_1 hh =>
    simp only [hh]
    split
    · simp
    · split <;> simp
  case h_6 hh | h_10 hh =>
    simp only [hh]
    split
    · next hn => simp [hn]
    · next hn => simpa [← BitVec.toNat_inj] using hn
  case h_9 hh =>
    simp only [hh]
    split
    case h_10 =>
      simp only [imp_false, ← BitVec.toNat_inj, BitVec.toNat_ofNat] at *
      simp
      omega
    all_goals next hn => simp [hn]
  case h_15 hh =>
    simp only [hh]
    split
    case h_3 =>
      simp only [imp_false, ← BitVec.toNat_inj, BitVec.toNat_ofNat] at *
      simp [*]
    all_goals next hkk => simp [hkk]
  case h_16 hh =>
    simp only [hh]
    split
    case h_10 =>
      simp only [imp_false, ← BitVec.toNat_inj, BitVec.toNat_ofNat] at *
      simp [*]
    all_goals next hkk => simp [hkk]
  case h_17 =>
    exfalso
    clear hnlt
    generalize fieldH op = h at *
    revert h
    decide
  all_goals next hh => simp [hh]

theorem encode_sys_eq_iff (nnn : Addr) (op : Word) : encode (.sys nnn) = op ↔ op.toNat = nnn.toNat := by
  have hword : (encode (.sys nnn)).toNat = nnn.toNat := by
    refine (BitVec.toNat_append (0x0#4) nnn).trans ?_
    simp
  rw [← BitVec.toNat_inj, hword, eq_comm]

/-- Settles O8: the families by the decoder's rows; SYS by the round trip, its word being its address. -/
theorem illegalWordsAreExactlyThoseOfTheFamilies : Obligations.IllegalWordsAreExactlyThoseOfTheFamilies := by
  intro op
  constructor
  · intro e
    rw [← fieldH_toNat, ← fieldN_toNat, ← fieldKK_toNat]
    constructor
    · intro h
      obtain rfl := decode_error op e h
      exact ⟨rfl, (decode_unsupported_iff op).mp h⟩
    · rintro ⟨rfl, hop⟩
      exact (decode_unsupported_iff op).mpr hop
  · intro nnn
    rw [decode_eq_ok_iff, encode_sys_eq_iff]
    refine and_congr_right fun hop => ?_
    simp only [Instr.wellFormed, Bool.and_eq_true, bne_iff_ne, ne_eq, ← BitVec.toNat_inj, hop, BitVec.toNat_ofNat]

/-- Settles O9: closed words, evaluated. -/
theorem wordsOfTheTableDecodeToTheirInstructions : Obligations.WordsOfTheTableDecodeToTheirInstructions := by
  unfold Obligations.WordsOfTheTableDecodeToTheirInstructions
  decide

end Sys2Proof.Proofs
end

section
/-! What an instruction can do, said once: it raises the fault that its conditions name and nothing else happens, or it
completes, in one of a few ways that name the elements it writes. Every statement about all instructions is a case analysis
over those ways. -/

namespace Sys2Proof.Proofs

open Sys2Proof Sys2Proof.Machine

/-- The fault of an access to `len` bytes from I, if they pass 0xFFF (R52). -/
def rangeFault (s : State) (len : Nat) : Option Fault :=
  if checkRange s.i.toNat len then none else some .outOfBoundsAddress

/-- The fault an instruction raises in a state, none when it completes (R210, R216); `exec_cases_by_fault` ties it to
`exec`. -/
def execFault : Instr → State → Option Fault
  | .sys _, _ => some .unsupportedOpcode
  | .ret, s => if s.sp.val = 0 then some .stackUnderflow else none
  | .call _, s => if s.sp.val < 16 then none else some .stackOverflow
  | .drw _ _ n, s => rangeFault s n.toNat
  | .ldB _, s => rangeFault s 3
  | .stRegs x, s | .ldRegs x, s => rangeFault s (x.toNat + 1)
  | _, _ => none

/-- The ways in which an instruction that raises no fault can leave the state `s`, by the elements that it writes. -/
inductive Completes (s : State) : Instr → State → Prop
  | waits (x) : Completes s (.ldVK x) s
  | skips (i c) (hi : IsSkip i) : Completes s i (s.skipIf c)
  | jumps (nnn) : Completes s (.jp nnn) (s.setPc (addrOperand nnn))
  | jumpsByV0 (nnn) : Completes s (.jpV0 nnn) (s.setPc (addrOperand nnn + wideReg s 0x0#4))
  | returns (sp) (k : Fin 16) : Completes s .ret { s with sp := sp, pc := s.stack[k.val] }
  | calls (nnn sp) (stack : Vector Word 16)
      (hstack : ∀ k : Fin 16, stack[k.val] = s.pc + 2#16 ∨ stack[k.val] = s.stack[k.val]) :
      Completes s (.call nnn) { s with stack := stack, sp := sp, pc := addrOperand nnn }
  | writesReg (i x b) (hx : MayWriteReg i x) : Completes s i (s.setReg x b).advance
  | writesRegAndFlag (i x b c) (hx : MayWriteReg i x) (hf : MayWriteReg i VF) :
      Completes s i (s.setResultAndFlag x b c).advance
  | drawsByte (x kk) : Completes s (.rnd x kk) (s.drawByte.2.setReg x (s.drawByte.1 &&& kk)).advance
  | loadsRegs (x) :
      Completes s (.ldRegs x) { s with v := loadRegs s.mem s.i.toNat s.v (x.toNat + 1), pc := s.pc + 2#16 }
  | writesI (i a) (hi : (∃ nnn, i = .ldI nnn) ∨ ∃ x, i = .addIV x ∨ i = .ldF x) : Completes s i (s.setI a).advance
  | writesDt (x) : Completes s (.ldDTV x) (s.setDt (s.reg x)).advance
  | writesSt (x) : Completes s (.ldSTV x) (s.setSt (s.reg x)).advance
  | storesBytes (i) (bs : List Byte) (hi : ∃ x, i = .ldB x ∨ i = .stRegs x)
      (hfits : s.i.toNat + bs.length ≤ Config.memSize) :
      Completes s i (s.setMem (s.mem.writeBytes s.i.toNat bs)).advance
  | clearsScreen : Completes s .cls (s.show FrameBuffer.blank).advance
  | drawsSprite (x y n fb c) : Completes s (.drw x y n) ((s.show fb).setReg VF (flagByte c)).advance

/-! Which of the two it is -/

theorem rangeFault_eq_none_iff (s : State) (len : Nat) :
    rangeFault s len = none ↔ len = 0 ∨ s.i.toNat + len - 1 ≤ 0xFFF := by
  rw [← checkRange_iff]
  unfold rangeFault
  split <;> simp [*]

theorem rangeFault_eq_some_iff (s : State) (len : Nat) (k : Fault) :
    rangeFault s len = some k ↔ k = .outOfBoundsAddress ∧ 0 < len ∧ 0xFFF < s.i.toNat + len - 1 := by
  rw [← checkRange_eq_false_iff]
  unfold rangeFault
  split <;> simp [*, eq_comm]

/-- The conditions of R210 and R216, kind by kind. -/
theorem execFault_eq_some_iff (i : Instr) (s : State) (k : Fault) :
    execFault i s = some k ↔
      (k = .unsupportedOpcode ∧ ∃ nnn, i = .sys nnn) ∨
      (k = .stackOverflow ∧ s.sp.val = 16 ∧ ∃ nnn, i = .call nnn) ∨
      (k = .stackUnderflow ∧ s.sp.val = 0 ∧ i = .ret) ∨
      (k = .outOfBoundsAddress ∧
        ((∃ x y n, i = .drw x y n ∧ 0 < n.toNat ∧ 0xFFF < s.i.toNat + n.toNat - 1) ∨
         (∃ x, i = .ldB x ∧ 0xFFF < s.i.toNat + 2) ∨
         ∃ x, (i = .stRegs x ∨ i = .ldRegs x) ∧ 0xFFF < s.i.toNat + x.toNat)) := by
  cases i with
  | sys nnn => simp [execFault, eq_comm]
  | ret => simp [execFault, eq_comm, and_comm]
  | call nnn =>
    have hsp : ¬ s.sp.val < 16 ↔ s.sp.val = 16 := by omega
    simp [execFault, hsp, eq_comm, and_comm]
  | drw x y n => simp [execFault, rangeFault_eq_some_iff]
  | ldB x => simp [execFault, rangeFault_eq_some_iff]
  | stRegs x | ldRegs x => simp [execFault, rangeFault_eq_some_iff]
  | _ => simp [execFault]

/-- An instruction completes, or it raises the fault that its conditions name: I is the address of an access out of bounds,
pc that of every other fault (R210). -/
def CompletesOrFaults (i : Instr) (s : State) : Prop :=
  (execFault i s = none ∧ ∃ t, exec i s = .next t ∧ Completes s i t) ∨
  ∃ k, execFault i s = some k ∧ exec i s = s.raiseIn i k (if k = .outOfBoundsAddress then s.i else s.pc)

/-- The instructions that check a range first. -/
theorem completesOrFaults_of_checked (i : Instr) (s t : State) (len : Nat) (he : exec i s = s.checked i len t)
    (hf : execFault i s = rangeFault s len) (ht : rangeFault s len = none → Completes s i t) : CompletesOrFaults i s := by
  rcases s.checked_cases i len t with ⟨hc, hin⟩ | ⟨hc, hout⟩
  · have hr : rangeFault s len = none := if_pos hc
    exact .inl ⟨hf.trans hr, t, he.trans hin, ht hr⟩
  · have hr : rangeFault s len = some .outOfBoundsAddress := if_neg (by simp [hc])
    exact .inr ⟨_, hf.trans hr, he.trans hout⟩

/-- The instructions that never fault. -/
theorem completesOrFaults_of_next (i : Instr) (s t : State) (hf : execFault i s = none) (he : exec i s = .next t)
    (ht : Completes s i t) : CompletesOrFaults i s := .inl ⟨hf, t, he, ht⟩

theorem completesOrFaults_ret (s : State) : CompletesOrFaults .ret s := by
  by_cases h : s.sp.val = 0
  · exact .inr ⟨.stackUnderflow, if_pos h, exec_ret_empty s (s.pop_empty h)⟩
  · obtain ⟨t, hpop, ht, -⟩ := s.pop_spec h
    refine completesOrFaults_of_next _ _ _ (if_neg h) (exec_ret_popped s t _ hpop) ?_
    rw [ht]
    exact .returns t.sp ⟨s.sp.val - 1, by omega⟩

theorem completesOrFaults_call (nnn : Addr) (s : State) : CompletesOrFaults (.call nnn) s := by
  by_cases h : s.sp.val < 16
  · obtain ⟨t, hpush, ht, -, hstack⟩ := s.push_spec (s.pc + 2#16) h
    refine completesOrFaults_of_next _ _ _ (if_pos h) (exec_call_pushed nnn s t hpush) ?_
    rw [ht]
    refine .calls nnn t.sp t.stack fun k => ?_
    rw [hstack k]
    split
    · exact .inl rfl
    · exact .inr rfl
  · exact .inr ⟨.stackOverflow, if_neg h, exec_call_full nnn s (s.push_full _ (by omega))⟩

theorem completesOrFaults_ldVK (x : Reg) (s : State) : CompletesOrFaults (.ldVK x) s := by
  cases h : lowestKeyDown s with
  | none => exact completesOrFaults_of_next _ _ _ rfl (exec_ldVK_waits x s h) (.waits x)
  | some k => exact completesOrFaults_of_next _ _ _ rfl (exec_ldVK_pressed x s k h) (.writesReg _ _ _ rfl)

/-- Everything an instruction can do. -/
theorem exec_cases_by_fault (i : Instr) (s : State) : CompletesOrFaults i s := by
  have hnext := completesOrFaults_of_next i s
  have hchecked := completesOrFaults_of_checked i s
  cases i with
  | sys nnn => exact .inr ⟨.unsupportedOpcode, rfl, rfl⟩
  | cls => exact hnext _ rfl rfl .clearsScreen
  | ret => exact completesOrFaults_ret s
  | jp nnn => exact hnext _ rfl rfl (.jumps nnn)
  | call nnn => exact completesOrFaults_call nnn s
  | seK | sneK | seV | sneV | skp | sknp => exact hnext _ rfl rfl (.skips _ _ (by simp [IsSkip]))
  | ldK x _ | addK x _ | ldV x _ | orV x _ | andV x _ | xorV x _ | ldVDT x =>
    exact hnext _ rfl rfl (.writesReg _ x _ rfl)
  | addV x y | sub x y | shr x y | subn x y | shl x y =>
    exact hnext _ rfl rfl (.writesRegAndFlag _ x _ _ (.inl rfl) (.inr rfl))
  | ldI nnn => exact hnext _ rfl rfl (.writesI _ _ (.inl ⟨nnn, rfl⟩))
  | addIV x => exact hnext _ rfl rfl (.writesI _ _ (.inr ⟨x, .inl rfl⟩))
  | ldF x => exact hnext _ rfl rfl (.writesI _ _ (.inr ⟨x, .inr rfl⟩))
  | jpV0 nnn => exact hnext _ rfl rfl (.jumpsByV0 nnn)
  | rnd x kk => exact hnext _ rfl rfl (.drawsByte x kk)
  | ldVK x => exact completesOrFaults_ldVK x s
  | ldDTV x => exact hnext _ rfl rfl (.writesDt x)
  | ldSTV x => exact hnext _ rfl rfl (.writesSt x)
  | drw x y n => exact hchecked _ _ rfl rfl fun _ => .drawsSprite x y n _ _
  | ldB x =>
    refine hchecked _ _ rfl rfl fun hr => .storesBytes _ _ ⟨x, .inl rfl⟩ ?_
    rw [rangeFault_eq_none_iff] at hr
    simp only [decimalDigits, List.length_cons, List.length_nil, Config.memSize]
    omega
  | stRegs x =>
    refine hchecked _ _ rfl rfl fun hr => .storesBytes _ _ ⟨x, .inr rfl⟩ ?_
    rw [rangeFault_eq_none_iff] at hr
    rw [length_regsUpTo, Config.memSize]
    omega
  | ldRegs x => exact hchecked _ _ rfl rfl fun _ => .loadsRegs x

/-- What an instruction has done when it answered `t`. -/
theorem exec_next_cases {i : Instr} {s t : State} (h : exec i s = .next t) :
    (execFault i s = none ∧ Completes s i t) ∨
    ∃ k r, execFault i s = some k ∧ t = { s with flt := some r } := by
  rcases exec_cases_by_fault i s with ⟨hf, u, hu, hc⟩ | ⟨k, hf, hr⟩
  · cases next_inj (hu.symm.trans h)
    exact .inl ⟨hf, hc⟩
  · exact .inr ⟨k, _, hf, State.raise_next s t k _ _ (hr.symm.trans h)⟩

end Sys2Proof.Proofs
end

section
/-! The writers of each element of the state (10_state.md sections 2 to 8), read off the ways an instruction can complete. -/

namespace Sys2Proof.Proofs

open Sys2Proof Sys2Proof.Machine

/-! Each element under an instruction that completes -/

section Completion

variable {s t : State} {ins : Instr}

theorem Completes.reg_of_not_mayWriteReg (h : Completes s ins t) (z : Reg) (hz : ¬ MayWriteReg ins z) : t.reg z = s.reg z := by
  cases h with
  | writesReg _ x b hx =>
    have hzx : z ≠ x := by rintro rfl; exact hz hx
    rw [State.advance_reg, State.reg_setReg_other _ _ _ _ hzx]
  | writesRegAndFlag _ x b c hx hf =>
    have hzx : z ≠ x := by rintro rfl; exact hz hx
    have hzf : z ≠ VF := by rintro rfl; exact hz hf
    rw [State.advance_reg, State.reg_setResultAndFlag, if_neg hzf, if_neg hzx]
  | drawsByte x kk => exact State.reg_setReg_other _ _ _ _ hz
  | drawsSprite x y n fb c => exact State.reg_setReg_other _ _ _ _ hz
  | loadsRegs x =>
    have hzx : ¬ z.toNat < x.toNat + 1 := fun hlt => hz (Nat.le_of_lt_succ hlt)
    exact (getElem_loadRegs _ _ _ _ _ _).trans (if_neg hzx)
  | _ => rfl

theorem Completes.pc (h : Completes s ins t) :
    t.pc = s.pc + 2#16 ∨ (t.pc = s.pc + 4#16 ∧ IsSkip ins) ∨ IsJump ins ∨ (t = s ∧ ∃ x, ins = .ldVK x) := by
  cases h with
  | waits x => exact .inr (.inr (.inr ⟨rfl, x, rfl⟩))
  | skips _ c hi =>
    cases c
    · exact .inl rfl
    · exact .inr (.inl ⟨rfl, hi⟩)
  | jumps | jumpsByV0 | returns | calls => exact .inr (.inr (.inl (by simp [IsJump])))
  | _ => exact .inl rfl

theorem Completes.key (h : Completes s ins t) : t.key = s.key := by cases h <;> rfl

theorem Completes.flt (h : Completes s ins t) : t.flt = s.flt := by cases h <;> rfl

theorem Completes.source (h : Completes s ins t) : t.source = s.source := by cases h <;> rfl

theorem Completes.fb_or_redraw (h : Completes s ins t) :
    (t.fb = s.fb ∧ t.redraw = s.redraw) ∨ (t.redraw = true ∧ (ins = .cls ∨ ∃ x y n, ins = .drw x y n)) := by
  cases h with
  | clearsScreen => exact .inr ⟨rfl, .inl rfl⟩
  | drawsSprite x y n => exact .inr ⟨rfl, .inr ⟨x, y, n, rfl⟩⟩
  | _ => exact .inl ⟨rfl, rfl⟩

theorem Completes.dt (h : Completes s ins t) : t.dt = s.dt ∨ ∃ x, ins = .ldDTV x ∧ t.dt = s.reg x := by
  cases h with
  | writesDt x => exact .inr ⟨x, rfl, rfl⟩
  | _ => exact .inl rfl

theorem Completes.st (h : Completes s ins t) : t.st = s.st ∨ ∃ x, ins = .ldSTV x ∧ t.st = s.reg x := by
  cases h with
  | writesSt x => exact .inr ⟨x, rfl, rfl⟩
  | _ => exact .inl rfl

theorem Completes.i (h : Completes s ins t) : t.i = s.i ∨ (∃ nnn, ins = .ldI nnn) ∨ ∃ x, ins = .addIV x ∨ ins = .ldF x := by
  cases h with
  | writesI _ a hi => exact .inr hi
  | _ => exact .inl rfl

theorem Completes.sp (h : Completes s ins t) : t.sp = s.sp ∨ ins = .ret ∨ ∃ nnn, ins = .call nnn := by
  cases h with
  | returns => exact .inr (.inl rfl)
  | calls nnn => exact .inr (.inr ⟨nnn, rfl⟩)
  | _ => exact .inl rfl

theorem Completes.stack (h : Completes s ins t) : t.stack = s.stack ∨ ∃ nnn, ins = .call nnn := by
  cases h with
  | calls nnn => exact .inr ⟨nnn, rfl⟩
  | _ => exact .inl rfl

theorem Completes.mem (h : Completes s ins t) : t.mem = s.mem ∨ ∃ x, ins = .ldB x ∨ ins = .stRegs x := by
  cases h with
  | storesBytes _ bs hi => exact .inr hi
  | _ => exact .inl rfl

theorem Completes.draws (h : Completes s ins t) : t.draws = s.draws ∨ ∃ x kk, ins = .rnd x kk := by
  cases h with
  | drawsByte x kk => exact .inr ⟨x, kk, rfl⟩
  | _ => exact .inl rfl

end Completion

/-! All elements together -/

/-- The instructions that can raise a fault when they run. -/
theorem fault_writers {i : Instr} {s : State} {k : Fault} (h : execFault i s = some k) :
    i = .ret ∨ (∃ nnn, i = .sys nnn ∨ i = .call nnn) ∨ (∃ x y n, i = .drw x y n) ∨
      ∃ x, i = .ldB x ∨ i = .stRegs x ∨ i = .ldRegs x := by
  rcases (execFault_eq_some_iff i s k).mp h with
    ⟨-, nnn, rfl⟩ | ⟨-, -, nnn, rfl⟩ | ⟨-, -, rfl⟩ | ⟨-, ⟨x, y, n, rfl, -⟩ | ⟨x, rfl, -⟩ | ⟨x, hx, -⟩⟩
  · exact .inr (.inl ⟨nnn, .inl rfl⟩)
  · exact .inr (.inl ⟨nnn, .inr rfl⟩)
  · exact .inl rfl
  · exact .inr (.inr (.inl ⟨x, y, n, rfl⟩))
  · exact .inr (.inr (.inr ⟨x, .inl rfl⟩))
  · exact .inr (.inr (.inr ⟨x, .inr hx⟩))

/-- Settles O19: an instruction that completes has the writers above, element by element; one that faults writes the latch
alone. -/
theorem eachElementHasOnlyItsWriters : Obligations.EachElementHasOnlyItsWriters := by
  intro i s t h
  rcases exec_next_cases h with ⟨-, hc⟩ | ⟨k, r, hf, rfl⟩
  · have hfb := hc.fb_or_redraw
    refine ⟨fun z hz => ?_, ?_, hc.key, fun hne => ?_, fun hne => ?_, fun hne => ?_, fun hne => ?_,
      hc.i.resolve_left, hc.sp.resolve_left, hc.stack.resolve_left, hc.mem.resolve_left, hc.source,
      hc.draws.resolve_left, fun hne => absurd hc.flt hne⟩
    · by_contra hno
      exact hz (hc.reg_of_not_mayWriteReg z hno)
    · rcases hc.pc with h2 | h4 | hj | hw
      · exact .inl h2
      · exact .inr (.inl h4)
      · exact .inr (.inr (.inl hj))
      · exact .inr (.inr (.inr (.inl hw)))
    · exact (hfb.resolve_left fun hsame => hne hsame.1).2
    · exact hfb.resolve_left fun hsame => hne hsame.2
    · obtain ⟨x, hx, -⟩ := hc.dt.resolve_left hne
      exact ⟨x, hx⟩
    · obtain ⟨x, hx, -⟩ := hc.st.resolve_left hne
      exact ⟨x, hx⟩
  · refine ⟨fun z hz => absurd rfl hz, .inr (.inr (.inr (.inr ⟨r, rfl⟩))), rfl, ?_⟩
    simp [fault_writers hf]

/-- Settles O20: VF is a register, so its writers are those of O19 that name VF. -/
theorem vFIsWrittenOnlyByItsWriters : Obligations.VFIsWrittenOnlyByItsWriters := by
  intro i s t h hne
  have hw : MayWriteReg i VF := (eachElementHasOnlyItsWriters i s t h).1 VF hne
  clear h hne
  cases i with
  | ldRegs x =>
    have hle : 15 ≤ x.toNat := hw
    have hx : x = VF := by bv_omega
    simp [hx]
  | _ => simp_all [MayWriteReg]

end Sys2Proof.Proofs
end

section
/-! What a step can do (30_encoding.md R77; 60_exceptions.md R210 to R216): on a core that has not faulted it either lets the
next instruction complete, or latches the fault that its conditions name and changes nothing else. -/

namespace Sys2Proof.Proofs

open Sys2Proof Sys2Proof.Machine

/-- The fault that a step of a core without one raises: by the fetch, by the decoder, or by the instruction. -/
def stepFault (s : State) : Option Fault :=
  match s.fetch with
  | none => some .outOfBoundsAddress
  | some op =>
    match decode op with
    | .error _ => some .unsupportedOpcode
    | .ok i => execFault i s

/-- The record of a fault of a step (R214): its address is I when an instruction's access to memory is out of bounds. -/
def faultRecord (s : State) (k : Fault) : FaultRecord :=
  ⟨k, s.pc, s.fetch, if k = .outOfBoundsAddress ∧ s.fetch ≠ none then s.i else s.pc⟩

/-- The fetch is within its bound when there is a next instruction (R78). -/
theorem pc_le_of_nextInstr {s : State} {i : Instr} (h : NextInstr s i) : s.pc.toNat ≤ 0xFFE := by
  obtain ⟨op, hop, -⟩ := h
  by_contra hgt
  rw [s.fetch_none (by omega)] at hop
  cases hop

theorem stepFault_of_nextInstr {s : State} {i : Instr} (h : NextInstr s i) : stepFault s = execFault i s := by
  obtain ⟨op, hop, hd⟩ := h
  simp [stepFault, hop, hd]

theorem stepFault_eq_some_iff (s : State) (k : Fault) :
    stepFault s = some k ↔
      (s.fetch = none ∧ k = .outOfBoundsAddress) ∨
      (∃ op, s.fetch = some op ∧ (∃ e, decode op = .error e) ∧ k = .unsupportedOpcode) ∨
      ∃ i, NextInstr s i ∧ execFault i s = some k := by
  unfold stepFault NextInstr
  cases s.fetch with
  | none => simp [eq_comm]
  | some op => cases hd : decode op <;> simp [hd, eq_comm]

/-- Everything a step of a core that has not faulted can do. -/
theorem step_cases_by_fault (s : State) (hs : s.flt = none) :
    (stepFault s = none ∧ ∃ i t, NextInstr s i ∧ step s = .next t ∧ Completes s i t) ∨
    ∃ k, stepFault s = some k ∧ step s = .next { s with flt := some (faultRecord s k) } := by
  rcases step_cases s with ⟨hf, -⟩ | ⟨-, hfe, he⟩ | ⟨-, op, hfe, hd, he⟩ | ⟨-, op, i, hfe, hd, he⟩
  · exact absurd hs hf
  · exact .inr ⟨.outOfBoundsAddress, by simp [stepFault, hfe], by simp [he, faultRecord, hfe]⟩
  · exact .inr ⟨.unsupportedOpcode, by simp [stepFault, hfe, hd], by simp [he, faultRecord, hfe]⟩
  · have hi : NextInstr s i := ⟨op, hfe, hd⟩
    rw [stepFault_of_nextInstr hi, he]
    rcases exec_cases_by_fault i s with ⟨hf, t, ht, hc⟩ | ⟨k, hf, hr⟩
    · exact .inl ⟨hf, i, t, hi, ht, hc⟩
    · refine .inr ⟨k, hf, ?_⟩
      rw [hr, State.raiseIn, encode_decode op i hd]
      simp [State.raise, faultRecord, hfe]

theorem step_of_fault (s : State) (h : s.flt ≠ none) : step s = .next s := by
  rcases step_cases s with ⟨-, he⟩ | ⟨hn, -⟩ | ⟨hn, -⟩ | ⟨hn, -⟩
  · exact he
  all_goals exact absurd hn h

/-- What a step has done when it answered `t`. -/
theorem step_next_cases {s t : State} (h : step s = .next t) :
    (s.flt ≠ none ∧ t = s) ∨
    (s.flt = none ∧ stepFault s = none ∧ ∃ i, NextInstr s i ∧ Completes s i t) ∨
    (s.flt = none ∧ ∃ k, stepFault s = some k ∧ t = { s with flt := some (faultRecord s k) }) := by
  by_cases hs : s.flt = none
  · rcases step_cases_by_fault s hs with ⟨hf, i, u, hi, hu, hc⟩ | ⟨k, hk, hu⟩
    · obtain rfl := next_inj (hu.symm.trans h)
      exact .inr (.inl ⟨hs, hf, i, hi, hc⟩)
    · exact .inr (.inr ⟨hs, k, hk, (next_inj (hu.symm.trans h)).symm⟩)
  · exact .inl ⟨hs, next_inj (h.symm.trans (step_of_fault s hs))⟩

theorem step_answers_next (s : State) : ∃ t, step s = .next t := by
  by_cases hs : s.flt = none
  · rcases step_cases_by_fault s hs with ⟨-, i, t, -, ht, -⟩ | ⟨k, -, ht⟩
    · exact ⟨t, ht⟩
    · exact ⟨_, ht⟩
  · exact ⟨s, step_of_fault s hs⟩

/-- Settles O17: a step completes or latches a fault, and either is a next state whose latch gives the result. -/
theorem everyStepAnswersANextState : Obligations.EveryStepAnswersANextState := by
  intro s
  obtain ⟨t, ht⟩ := step_answers_next s
  refine ⟨t, ht, ?_⟩
  rw [transact_step s t ht]
  cases hf : t.flt with
  | none => exact .inl (by rw [stepResult_ok t hf])
  | some r => exact .inr ⟨r.kind, by rw [stepResult_fault t r hf]⟩

/-- Settles O15: an instruction that completes keeps the latch, so the step raised a fault, with the record of R214. -/
theorem faultingStepChangesOnlyTheLatch : Obligations.FaultingStepChangesOnlyTheLatch := by
  intro s t r hs h hr
  have hresult : transact .step s = (t, .fault r.kind) := by rw [transact_step s t h, stepResult_fault t r hr]
  rcases step_next_cases h with ⟨hne, -⟩ | ⟨-, -, i, -, hc⟩ | ⟨-, k, -, rfl⟩
  · exact absurd hs hne
  · rw [hc.flt, hs] at hr
    cases hr
  · obtain rfl : faultRecord s k = r := Option.some.inj hr
    exact ⟨rfl, rfl, rfl, rfl, hresult⟩

/-! Which fault a step raises -/

theorem stepRaises_iff {s : State} (hs : s.flt = none) (k : Fault) : StepRaises k s ↔ stepFault s = some k := by
  rcases step_cases_by_fault s hs with ⟨hf, i, t, -, ht, hc⟩ | ⟨k', hf, ht⟩
  · have hno : ¬ StepRaises k s := by
      rintro ⟨u, r, hu, hr, -⟩
      rw [← next_inj (ht.symm.trans hu), hc.flt, hs] at hr
      cases hr
    simp [hno, hf]
  · rw [hf, Option.some_inj]
    constructor
    · rintro ⟨u, r, hu, hr, rfl⟩
      obtain rfl := next_inj (ht.symm.trans hu)
      exact congrArg FaultRecord.kind (Option.some.inj hr)
    · rintro rfl
      exact ⟨_, _, ht, rfl, rfl⟩

/-- Settles O16: a step raises a kind exactly when the fetch, the decoder or the next instruction does, and the conditions
of the last are those of `execFault_eq_some_iff`. -/
theorem stepsFaultExactlyWhenTheTaxonomySays : Obligations.StepsFaultExactlyWhenTheTaxonomySays := by
  intro s hs
  simp only [stepRaises_iff hs, stepFault_eq_some_iff, execFault_eq_some_iff]
  refine ⟨?unsupported, ?overflow, ?underflow, ?outOfBounds, ?tooLarge⟩
  case unsupported =>
    simp only [reduceCtorEq, and_false, and_true, false_and, true_and, or_false, false_or, NextInstr]
    constructor
    · rintro (⟨op, hop, he⟩ | ⟨i, ⟨op, hop, hd⟩, nnn, rfl⟩)
      · exact ⟨op, hop, .inl he⟩
      · exact ⟨op, hop, .inr ⟨nnn, hd⟩⟩
    · rintro ⟨op, hop, he | ⟨nnn, hd⟩⟩
      · exact .inl ⟨op, hop, he⟩
      · exact .inr ⟨_, ⟨op, hop, hd⟩, nnn, rfl⟩
  case overflow => simp [and_comm]
  case underflow => simp [and_comm]
  case outOfBounds =>
    simp only [reduceCtorEq, and_false, and_true, false_and, true_and, false_or, exists_false,
      State.fetch_eq_none_iff]
    refine or_congr_right ⟨?_, ?_⟩
    · rintro ⟨i, hi, ⟨x, y, n, rfl, hn⟩ | ⟨x, rfl, hx⟩ | ⟨x, rfl | rfl, hx⟩⟩
      · exact .inl ⟨x, y, n, hi, hn⟩
      · exact .inr (.inl ⟨x, hi, hx⟩)
      · exact .inr (.inr ⟨x, .inl hi, hx⟩)
      · exact .inr (.inr ⟨x, .inr hi, hx⟩)
    · rintro (⟨x, y, n, hi, hn⟩ | ⟨x, hi, hx⟩ | ⟨x, hi | hi, hx⟩)
      · exact ⟨_, hi, .inl ⟨x, y, n, rfl, hn⟩⟩
      · exact ⟨_, hi, .inr (.inl ⟨x, rfl, hx⟩)⟩
      · exact ⟨_, hi, .inr (.inr ⟨x, .inl rfl, hx⟩)⟩
      · exact ⟨_, hi, .inr (.inr ⟨x, .inr rfl, hx⟩)⟩
  case tooLarge => simp

/-! Elements that a step leaves -/

/-- Settles O21: of the ways to complete, only the two timer writes change a timer, and none changes a key or clears
REDRAW. -/
theorem stepsAloneNeverMoveTimersOrKeys : Obligations.StepsAloneNeverMoveTimersOrKeys := by
  intro s t h
  rcases step_next_cases h with ⟨-, rfl⟩ | ⟨-, -, i, hi, hc⟩ | ⟨-, k, -, rfl⟩
  · exact ⟨rfl, id, .inl rfl, .inl rfl⟩
  · refine ⟨hc.key, fun hr => ?_, hc.dt.imp_right ?_, hc.st.imp_right ?_⟩
    · rcases hc.fb_or_redraw with ⟨-, hsame⟩ | ⟨hset, -⟩
      · rw [hsame, hr]
      · exact hset
    · rintro ⟨x, rfl, hx⟩
      exact ⟨x, hi, hx⟩
    · rintro ⟨x, rfl, hx⟩
      exact ⟨x, hi, hx⟩
  · exact ⟨rfl, id, .inl rfl, .inl rfl⟩

/-! The cycle, case by case -/

theorem step_of_nextInstr {s : State} {i : Instr} (hs : s.flt = none) (h : NextInstr s i) : step s = exec i s := by
  obtain ⟨op, hop, hd⟩ := h
  simp [step, cycle, hs, hop, hd]

/-- Two bytes as one number, the first the high byte (R55). -/
theorem wordOfBytes_eq_ofNat (hi lo : Byte) : wordOfBytes hi lo = BitVec.ofNat 16 (256 * hi.toNat + lo.toNat) := by
  have := hi.isLt
  have := lo.isLt
  refine BitVec.eq_of_toNat_eq ((BitVec.toNat_append hi lo).trans ?_)
  rw [← Nat.shiftLeft_add_eq_or_of_lt lo.isLt, Nat.shiftLeft_eq, BitVec.toNat_ofNat]
  omega

/-- Settles O11: within the bound the fetch gives the word of the two bytes. -/
theorem stepRunsTheDecodedInstruction : Obligations.StepRunsTheDecodedInstruction := by
  intro s i hs hpc hd
  rw [← wordOfBytes_eq_ofNat] at hd
  exact step_of_nextInstr hs ⟨_, s.fetch_some hpc, hd⟩

/-- Settles O12: the fetch gives no word, so the record has no opcode and pc as its address. -/
theorem fetchAboveTheBoundLatchesTheFault : Obligations.FetchAboveTheBoundLatchesTheFault := by
  intro s hs hpc
  have hfe := s.fetch_none hpc
  simp [step, cycle, hs, hfe, State.raise]

/-- Settles O13: both are the fault `UnsupportedOpcode` of the step. -/
theorem unsupportedOpcodeChangesNothingElse : Obligations.UnsupportedOpcodeChangesNothingElse := by
  intro s op hs hop hd
  obtain ⟨t, r, ht, hr, hk⟩ := ((stepsFaultExactlyWhenTheTaxonomySays s hs).1).mpr ⟨op, hop, hd⟩
  obtain ⟨rfl, -, -, -, hresult⟩ := faultingStepChangesOnlyTheLatch s t r hs ht hr
  exact ⟨r, ht, hk ▸ hresult⟩

/-- Settles O14: the cycle looks at the latch before anything else. -/
theorem faultedCoreStaysFaulted : Obligations.FaultedCoreStaysFaulted := by
  intro s r hr
  have hstep : step s = .next s := step_of_fault s (by simp [hr])
  exact ⟨hstep, by rw [transact_step s s hstep, stepResult_fault s r hr]⟩

/-- Settles O18: SYS raises its fault with its own word, which is its address. -/
theorem sysRaisesUnsupportedOpcode : Obligations.SysRaisesUnsupportedOpcode := by
  intro nnn s
  have hword : encode (.sys nnn) = BitVec.ofNat 16 nnn.toNat := by
    rw [encode_sys_eq_iff, BitVec.toNat_ofNat]
    omega
  rw [← hword]
  rfl

/-- Settles O30: the jump to its own address sets PC to what it was. -/
theorem aCompletedRunStaysWhereItIs : Obligations.ACompletedRunStaysWhereItIs := by
  rintro a s ⟨hpc, hs, hfe⟩
  have hpc' : s.setPc (addrOperand a) = s := by rw [addrOperand, ← hpc]; rfl
  rw [step_of_nextInstr hs ⟨_, hfe, decode_encode (.jp a) rfl⟩, exec_jp, hpc']

end Sys2Proof.Proofs
end

section
/-! The invariant of the machine (`StateInv`) at reset, along every step, and along every run of host transactions
(60_exceptions.md R230). -/

namespace Sys2Proof.Proofs

open Sys2Proof Sys2Proof.Machine

/-! Reset -/

/-- Settles O2: memory lists nothing, PC is 0x200, every entry is 0 and no fault is latched. -/
theorem resetStateMeetsTheInvariant : Obligations.ResetStateMeetsTheInvariant where
  mem_wf := Memory.wf_nil
  pc_le := by decide
  stack_le k := by simp [State.reset]
  fault_pc _ h := by cases h
  fault_kind _ h := by cases h

/-- Nothing in the invariant is about the model's own source and counter of draws. -/
theorem stateInv_resetTransaction (s : State) : StateInv (resetTransaction s) where
  __ := resetStateMeetsTheInvariant

/-! A step -/

section Completion

variable {s t : State} {ins : Instr} (h : Completes s ins t) (hs : StateInv s) (hpc : s.pc.toNat ≤ 0xFFE)
include h hs

theorem Completes.mem_wf : t.mem.wf := by
  cases h with
  | storesBytes _ bs _ hfits => exact Memory.wf_writeBytes _ _ _ hfits hs.mem_wf
  | _ => exact hs.mem_wf

include hpc

/-- The bound of R25: the farthest target is that of JP V0, 0xFFF + 0xFF. -/
theorem Completes.pc_le : t.pc.toNat ≤ 0x10FE := by
  have hadvance : (s.pc + 2#16).toNat ≤ 0x1000 := by bv_omega
  have hskip : (s.pc + 4#16).toNat ≤ 0x1002 := by bv_omega
  cases h with
  | waits => omega
  | skips _ c =>
    cases c
    · exact Nat.le_trans hadvance (by decide)
    · exact Nat.le_trans hskip (by decide)
  | jumps nnn =>
    rw [State.setPc_pc, addrOperand_toNat]
    omega
  | jumpsByV0 nnn =>
    have hnnn := addrOperand_toNat nnn
    have hv0 := wideReg_toNat s 0x0#4
    rw [State.setPc_pc, BitVec.toNat_add]
    omega
  | returns sp k => exact Nat.le_trans (hs.stack_le k) (by decide)
  | calls nnn =>
    show (addrOperand nnn).toNat ≤ 0x10FE
    rw [addrOperand_toNat]
    omega
  | _ => exact Nat.le_trans hadvance (by decide)

/-- A return address is pc + 2 with pc within the bound of the fetch (R25). -/
theorem Completes.stack_le (k : Fin 16) : t.stack[k.val].toNat ≤ 0x1000 := by
  have hadvance : (s.pc + 2#16).toNat ≤ 0x1000 := by bv_omega
  cases h with
  | calls nnn sp stack hstack =>
    show stack[k.val].toNat ≤ 0x1000
    rcases hstack k with hk | hk
    · rw [hk]; exact hadvance
    · rw [hk]; exact hs.stack_le k
  | _ => exact hs.stack_le k

end Completion

theorem stateInv_of_completes {s t : State} {ins : Instr} (hn : s.flt = none) (hi : NextInstr s ins)
    (h : Completes s ins t) (hs : StateInv s) : StateInv t where
  mem_wf := h.mem_wf hs
  pc_le := h.pc_le hs (pc_le_of_nextInstr hi)
  stack_le := h.stack_le hs (pc_le_of_nextInstr hi)
  fault_pc r hr := by rw [h.flt, hn] at hr; cases hr
  fault_kind r hr := by rw [h.flt, hn] at hr; cases hr

theorem stepFault_ne_imageTooLarge (s : State) : stepFault s ≠ some .imageTooLarge := by
  simp [stepFault_eq_some_iff, execFault_eq_some_iff]

/-- Settles O3: a fault writes the latch alone, with its record; an instruction that completes keeps each bound. -/
theorem everyStepKeepsTheInvariant : Obligations.EveryStepKeepsTheInvariant := by
  intro s t hs h
  rcases step_next_cases h with ⟨-, rfl⟩ | ⟨hn, -, ins, hi, hc⟩ | ⟨-, k, hk, rfl⟩
  · exact hs
  · exact stateInv_of_completes hn hi hc hs
  · exact
      { hs with
        fault_pc := by rintro r ⟨⟩; rfl
        fault_kind := by rintro r ⟨⟩ rfl; exact stepFault_ne_imageTooLarge s hk }

/-! Runs -/

theorem transact_keeps_stateInv (tr : Transaction) (s : State) (hs : StateInv s) : StateInv (transact tr s).1 := by
  cases tr with
  | reset => exact stateInv_resetTransaction s
  | step =>
    obtain ⟨t, ht⟩ := step_answers_next s
    rw [transact_step s t ht]
    exact everyStepKeepsTheInvariant s t hs ht
  | loadImage img =>
    by_cases h : img.length ≤ 3584
    · rw [transact_loadImage_fits img s h]
      exact { hs with mem_wf := Memory.wf_writeBytes _ _ _ (by rw [Config.memSize]; omega) hs.mem_wf }
    · rw [transact_loadImage_tooLarge img s (by omega)]
      exact hs
  | memWrite a b => exact { hs with mem_wf := Memory.wf_write _ _ _ a.isLt hs.mem_wf }
  | tick60Hz | setKey | consumesRedrawFlag => exact { hs with }
  | frameBuffer | soundTimer | memRead | inspect => exact hs

/-- Settles O4: every transaction keeps the invariant, so every finite and every endless run does. -/
theorem everyRunOfTransactionsKeepsTheInvariant : Obligations.EveryRunOfTransactionsKeepsTheInvariant := fun s hs =>
  ⟨fun ts => runTransactions_keeps StateInv transact_keeps_stateInv ts s hs,
    fun ts n => EndlessRun.stateAt_keeps StateInv transact_keeps_stateInv ts s hs n⟩

end Sys2Proof.Proofs
end

section
/-! ST, REDRAW and the stack entries at SP and above are read by nothing (10_state.md): from two states that differ at most
there, an instruction, and so a step, answers two such states. -/

namespace Sys2Proof.Proofs

open Sys2Proof Sys2Proof.Machine

/-- Whatever `r` answers, `r'` answers a state that differs from it at most in what is not read. -/
def MatchedBy (r r' : Result) : Prop := ∀ t, r = .next t → ∃ t', r' = .next t' ∧ SameButUnread t t'

theorem matchedBy_next {t t' : State} (h : SameButUnread t t') : MatchedBy (.next t) (.next t') := by
  rintro _ ⟨⟩
  exact ⟨t', rfl, h⟩

/-- The state with its unread elements replaced. -/
def State.withUnread (s : State) (st : Byte) (redraw : Bool) (stack : Vector Word 16) : State :=
  { s with st := st, redraw := redraw, stack := stack }

section Simulation

variable (s : State) (st : Byte) (redraw : Bool) {stack : Vector Word 16}
  (hstack : ∀ k : Fin 16, k.val < s.sp.val → stack[k.val] = s.stack[k.val])
include hstack

theorem matchedBy_raise (kind : Fault) (fop : Option Word) (a : Word) :
    MatchedBy (s.raise kind fop a) ((State.withUnread s st redraw stack).raise kind fop a) :=
  matchedBy_next ⟨rfl, hstack⟩

theorem matchedBy_checked (i : Instr) (len : Nat) {t t' : State} (ht : SameButUnread t t') :
    MatchedBy (s.checked i len t) ((State.withUnread s st redraw stack).checked i len t') := by
  have hi : (State.withUnread s st redraw stack).i = s.i := rfl
  unfold State.checked
  rw [hi]
  split
  · exact matchedBy_next ht
  · exact matchedBy_raise s st redraw hstack _ _ _

/-- RET reads the entry below SP alone (R101). -/
theorem matchedBy_ret : MatchedBy (exec .ret s) (exec .ret (State.withUnread s st redraw stack)) := by
  by_cases h : s.sp.val = 0
  · have hempty' := (State.withUnread s st redraw stack).pop_empty h
    rw [exec_ret_empty s (s.pop_empty h), exec_ret_empty _ hempty']
    exact matchedBy_raise s st redraw hstack _ _ _
  · obtain ⟨t, hpop, ht, hsp⟩ := s.pop_spec h
    obtain ⟨t', hpop', ht', hsp'⟩ := (State.withUnread s st redraw stack).pop_spec h
    rw [exec_ret_popped _ _ _ hpop, exec_ret_popped _ _ _ hpop']
    have hspeq : t'.sp = t.sp := Fin.ext (hsp'.trans hsp.symm)
    have htop := hstack ⟨s.sp.val - 1, by omega⟩ (Nat.sub_one_lt h)
    refine matchedBy_next ⟨?_, fun k hk => ?_⟩
    · rw [ht', ht, hspeq]
      exact congrArg (State.setPc _) htop
    · rw [ht', ht]
      exact hstack k (Nat.lt_of_lt_of_le hk (hsp.trans_le (Nat.sub_le _ _)))

/-- CALL overwrites the first stale entry and reads none (R102). -/
theorem matchedBy_call (nnn : Addr) :
    MatchedBy (exec (.call nnn) s) (exec (.call nnn) (State.withUnread s st redraw stack)) := by
  by_cases h : s.sp.val < 16
  · obtain ⟨t, hpush, ht, hsp, hentry⟩ := s.push_spec (s.pc + 2#16) h
    obtain ⟨t', hpush', ht', hsp', hentry'⟩ := (State.withUnread s st redraw stack).push_spec (s.pc + 2#16) h
    rw [exec_call_pushed _ _ _ hpush, exec_call_pushed _ _ _ hpush']
    have hspeq : t'.sp = t.sp := Fin.ext (hsp'.trans hsp.symm)
    refine matchedBy_next ⟨?_, fun k hk => ?_⟩
    · rw [ht', ht, hspeq]
      rfl
    · show t'.stack[k.val] = t.stack[k.val]
      have hk' : k.val < s.sp.val + 1 := hk.trans_eq hsp
      rw [hentry, hentry']
      by_cases hks : k.val = s.sp.val
      · exact (if_pos hks).trans (if_pos hks).symm
      · exact (if_neg hks).trans ((hstack k (by omega)).trans (if_neg hks).symm)
  · have hfull : s.sp.val = 16 := by omega
    have hfull' := (State.withUnread s st redraw stack).push_full (s.pc + 2#16) hfull
    rw [exec_call_full nnn s (s.push_full _ hfull), exec_call_full nnn _ hfull']
    exact matchedBy_raise s st redraw hstack _ _ _

/-- LD Vx, K waits in both or takes the same key in both. -/
theorem matchedBy_ldVK (x : Reg) :
    MatchedBy (exec (.ldVK x) s) (exec (.ldVK x) (State.withUnread s st redraw stack)) := by
  have hkey : lowestKeyDown (State.withUnread s st redraw stack) = lowestKeyDown s := rfl
  cases h : lowestKeyDown s with
  | none =>
    rw [exec_ldVK_waits x s h, exec_ldVK_waits x _ (hkey.trans h)]
    exact matchedBy_next ⟨rfl, hstack⟩
  | some k =>
    rw [exec_ldVK_pressed x s k h, exec_ldVK_pressed x _ k (hkey.trans h)]
    exact matchedBy_next ⟨rfl, hstack⟩

theorem exec_matchedBy (i : Instr) : MatchedBy (exec i s) (exec i (State.withUnread s st redraw stack)) := by
  cases i with
  | sys => exact matchedBy_raise s st redraw hstack _ _ _
  | ret => exact matchedBy_ret s st redraw hstack
  | call nnn => exact matchedBy_call s st redraw hstack nnn
  | ldVK x => exact matchedBy_ldVK s st redraw hstack x
  | drw | ldB | stRegs | ldRegs => exact matchedBy_checked s st redraw hstack _ _ ⟨rfl, hstack⟩
  | _ => exact matchedBy_next ⟨rfl, hstack⟩

/-- The cycle reads the latch, PC and memory, which the two states have in common. -/
theorem step_matchedBy : MatchedBy (step s) (step (State.withUnread s st redraw stack)) := by
  have hfetch : (State.withUnread s st redraw stack).fetch = s.fetch := rfl
  have hflt : (State.withUnread s st redraw stack).flt = s.flt := rfl
  unfold step cycle
  rw [hflt, hfetch]
  cases s.flt with
  | some r => exact matchedBy_next ⟨rfl, hstack⟩
  | none =>
    cases s.fetch with
    | none => exact matchedBy_raise s st redraw hstack _ _ _
    | some op =>
      cases hd : decode op with
      | error e => simp only [hd]; exact matchedBy_raise s st redraw hstack _ _ _
      | ok i => simp only [hd]; exact exec_matchedBy s st redraw hstack i

end Simulation

/-- Settles O22: the second state is the first with its unread elements replaced, and the cycle and every instruction do the
same in both. -/
theorem stepsNeverReadSoundRedrawOrStaleEntries : Obligations.StepsNeverReadSoundRedrawOrStaleEntries := by
  rintro s s' t ⟨hs', hstack⟩ h
  have hmatch := step_matchedBy s s'.st s'.redraw hstack t h
  have hsame : State.withUnread s s'.st s'.redraw s'.stack = s' := hs'.symm
  rwa [hsame] at hmatch

end Sys2Proof.Proofs
end

section
/-! Control transfer (40_control.md): the stack, the skips on two registers, and the jump with an offset. -/

namespace Sys2Proof.Proofs

open Sys2Proof Sys2Proof.Machine

theorem exec_seV (x y : Reg) (s : State) : exec (.seV x y) s = .next (s.skipIf (s.reg x == s.reg y)) := rfl

theorem exec_sneV (x y : Reg) (s : State) : exec (.sneV x y) s = .next (s.skipIf (s.reg x != s.reg y)) := rfl

theorem exec_jpV0 (nnn : Addr) (s : State) :
    exec (.jpV0 nnn) s = .next (s.setPc (addrOperand nnn + wideReg s 0x0#4)) := rfl

/-- Settles O29: both are the shared skip, as those on an immediate are (R106, R107). -/
theorem skipsOnTwoRegisters : Obligations.SkipsOnTwoRegisters := by
  intro x y s
  constructor
  · rw [exec_seV, skipIf_eq_of_iff s beq_iff_eq]
  · rw [exec_sneV, skipIf_eq_of_iff s bne_iff_ne]

/-- Settles O24: twelve bits and eight bits add up within sixteen (R108). -/
theorem jumpWithOffsetAddsV0 : Obligations.JumpWithOffsetAddsV0 := by
  intro nnn s
  refine ⟨_, exec_jpV0 nnn s, rfl, ?_⟩
  have := (s.reg 0x0#4).isLt
  rw [State.setPc_pc, BitVec.toNat_add, addrOperand_toNat, wideReg_toNat]
  omega

/-- CALL with room on the stack (R102). -/
theorem exec_call_spec (nnn : Addr) (s : State) (h : s.sp.val < 16) :
    ∃ t, exec (.call nnn) s = .next t ∧ t = { s with stack := t.stack, sp := t.sp, pc := t.pc } ∧
      (∀ k : Fin 16, t.stack[k.val] = if k.val = s.sp.val then s.pc + 2#16 else s.stack[k.val]) ∧
      t.sp.val = s.sp.val + 1 ∧ t.pc = addrOperand nnn := by
  obtain ⟨t, hpush, ht, hsp, hstack⟩ := s.push_spec (s.pc + 2#16) h
  refine ⟨_, exec_call_pushed nnn s t hpush, ?_, hstack, hsp, rfl⟩
  rw [ht]
  rfl

/-- RET with an entry on the stack (R101). -/
theorem exec_ret_spec (s : State) (h : s.sp.val ≠ 0) :
    ∃ t, exec .ret s = .next t ∧ t = { s with sp := t.sp, pc := t.pc } ∧ t.sp.val = s.sp.val - 1 ∧
      t.pc = s.stack[s.sp.val - 1]'(by have := s.sp.isLt; omega) := by
  obtain ⟨t, hpop, ht, hsp⟩ := s.pop_spec h
  refine ⟨_, exec_ret_popped s t _ hpop, ?_, hsp, rfl⟩
  rw [ht]
  rfl

/-- Settles O25: the push, or the fault of a full stack. -/
theorem callPushesAndJumps : Obligations.CallPushesAndJumps := by
  refine fun nnn s => ⟨fun h => ?_, fun h => ?_⟩
  · obtain ⟨t, he, ht, hstack, hsp, hpc⟩ := exec_call_spec nnn s h
    exact ⟨t, he, ht, hstack, hsp, by rw [hpc, addrOperand_toNat]⟩
  · exact ⟨_, exec_call_full nnn s (s.push_full _ h), rfl, rfl⟩

/-- Settles O26: the pop, or the fault of an empty stack. -/
theorem returnPopsIntoThePc : Obligations.ReturnPopsIntoThePc := fun s =>
  ⟨exec_ret_spec s, fun h => ⟨_, exec_ret_empty s (s.pop_empty h), rfl, rfl⟩⟩

/-- Settles O27: the entry that the return pops is the one that the call pushed (D20). -/
theorem returnUndoesItsCall : Obligations.ReturnUndoesItsCall := by
  intro nnn s t u hroom hcall hustack husp
  obtain ⟨t', ht', -, hstack, hsp, -⟩ := exec_call_spec nnn s hroom
  obtain rfl := next_inj (ht'.symm.trans hcall)
  have huval : u.sp.val = s.sp.val + 1 := by rw [husp, hsp]
  obtain ⟨w, hw, hwu, hwsp, hwpc⟩ := exec_ret_spec u (by omega)
  refine ⟨w, hw, ?_, Fin.ext (by omega), fun k hk => ?_⟩
  · have htop := hstack ⟨s.sp.val, hroom⟩
    simp only [hwpc, huval, hustack, Nat.add_sub_cancel]
    simpa using htop
  · have hbelow := hstack k
    rw [if_neg (by omega)] at hbelow
    rw [hwu]
    simpa [hustack] using hbelow

end Sys2Proof.Proofs
end

section
/-! Registers and the ALU (41_register_alu.md), and the wait for a key: what each writes, and its flag as the comparison of
exact numbers that the spec gives. -/

namespace Sys2Proof.Proofs

open Sys2Proof Sys2Proof.Machine

/-! One destination, no flag -/

theorem exec_ldV (x y : Reg) (s : State) : exec (.ldV x y) s = .next (s.setReg x (s.reg y)).advance := rfl

theorem exec_orV (x y : Reg) (s : State) : exec (.orV x y) s = .next (s.setReg x (s.reg x ||| s.reg y)).advance := rfl

theorem exec_andV (x y : Reg) (s : State) : exec (.andV x y) s = .next (s.setReg x (s.reg x &&& s.reg y)).advance := rfl

theorem exec_xorV (x y : Reg) (s : State) : exec (.xorV x y) s = .next (s.setReg x (s.reg x ^^^ s.reg y)).advance := rfl

/-- Settles O32: each writes Vx alone (R122 to R125). -/
theorem copyAndBitwiseOperations : Obligations.CopyAndBitwiseOperations := fun x y s =>
  ⟨⟨_, exec_ldV x y s, writesReg_advance_setReg s x _⟩, ⟨_, exec_orV x y s, writesReg_advance_setReg s x _⟩,
    ⟨_, exec_andV x y s, writesReg_advance_setReg s x _⟩, ⟨_, exec_xorV x y s, writesReg_advance_setReg s x _⟩⟩

/-- Settles O48: the key that is found is the lowest one pressed (R192). -/
theorem waitForKeyTakesTheLowestPressed : Obligations.WaitForKeyTakesTheLowestPressed := by
  refine fun x s => ⟨fun k hk hlow => ?_, fun hnone => ?_⟩
  · have hfound := (lowestKeyDown_eq_some s k).mpr ⟨hk, hlow⟩
    rw [BitVec.ofNat_toNat]
    exact ⟨_, exec_ldVK_pressed x s k hfound, writesReg_advance_setReg s x _⟩
  · exact exec_ldVK_waits x s ((lowestKeyDown_eq_none s).mpr hnone)

/-- Settles O36: the state in which the byte has been drawn differs in the counter alone (R131). -/
theorem randomByteIsMasked : Obligations.RandomByteIsMasked := by
  intro x kk s
  refine ⟨(s.drawByte.2.setReg x (s.drawByte.1 &&& kk)).advance, rfl, rfl, ?_, ?_, fun z hz => ?_⟩
  · exact State.reg_setReg_same _ _ _
  · rw [State.advance_reg, State.reg_setReg_same, BitVec.and_assoc, BitVec.and_not_self]
    exact BitVec.and_zero
  · exact State.reg_setReg_other _ _ _ _ hz

/-! One destination and the flag -/

/-- The shared effect of the five flag-setting instructions, with its frame (R132, R133). -/
theorem writesRegAndFlag_advance_setResultAndFlag (s : State) (x : Reg) (b : Byte) (c : Bool) :
    WritesRegAndFlag s (s.setResultAndFlag x b c).advance x b (flagByte c).toNat := by
  refine ⟨rfl, ?_, fun hx => ?_, fun z hzx hzf => ?_⟩
  all_goals rw [State.advance_reg, State.reg_setResultAndFlag]
  · rw [if_pos rfl]
  · rw [if_neg hx, if_pos rfl]
  · rw [if_neg hzf, if_neg hzx]

/-- A flag as the number it is. -/
theorem flagByte_toNat_of_iff {c : Bool} {p : Prop} [Decidable p] (h : c = true ↔ p) :
    (flagByte c).toNat = if p then 1 else 0 := by
  simp only [flagByte, ← h]
  cases c <;> rfl

theorem lowBit_toNat (a : Byte) : (flagByte (lowBit a)).toNat = a.toNat % 2 := by revert a; decide

theorem highBit_toNat (a : Byte) : (flagByte (highBit a)).toNat = a.toNat / 128 := by revert a; decide

theorem exec_addV (x y : Reg) (s : State) :
    exec (.addV x y) s = .next (s.setResultAndFlag x (s.reg x + s.reg y) (carry (s.reg x) (s.reg y))).advance := rfl

theorem exec_sub (x y : Reg) (s : State) :
    exec (.sub x y) s = .next (s.setResultAndFlag x (s.reg x - s.reg y) (noBorrow (s.reg x) (s.reg y))).advance := rfl

theorem exec_subn (x y : Reg) (s : State) :
    exec (.subn x y) s = .next (s.setResultAndFlag x (s.reg y - s.reg x) (noBorrow (s.reg y) (s.reg x))).advance := rfl

theorem exec_shr (x y : Reg) (s : State) :
    exec (.shr x y) s = .next (s.setResultAndFlag x (s.reg x >>> 1) (lowBit (s.reg x))).advance := rfl

theorem exec_shl (x y : Reg) (s : State) :
    exec (.shl x y) s = .next (s.setResultAndFlag x (s.reg x <<< 1) (highBit (s.reg x))).advance := rfl

/-- The byte of the exact difference is the difference of the bytes. -/
theorem ofInt_toNat_sub (a b : Byte) : BitVec.ofInt 8 ((a.toNat : Int) - b.toNat) = a - b := by
  apply BitVec.eq_of_toNat_eq
  have := a.isLt
  have := b.isLt
  rw [BitVec.toNat_ofInt, BitVec.toNat_sub]
  omega

theorem ofNat_toNat_half (a : Byte) : BitVec.ofNat 8 (a.toNat / 2) = a >>> 1 := by
  apply BitVec.eq_of_toNat_eq
  have := a.isLt
  simp [Nat.shiftRight_eq_div_pow]
  omega

theorem ofNat_toNat_double (a : Byte) : BitVec.ofNat 8 (a.toNat * 2 % 256) = a <<< 1 := by
  apply BitVec.eq_of_toNat_eq
  simp [Nat.shiftLeft_eq]

/-- Settles O33: the carry is that the exact sum exceeds 255 (R126). -/
theorem addSetsTheCarry : Obligations.AddSetsTheCarry := by
  intro x y s
  rw [ofNat_toNat_add_mod, ← flagByte_toNat_of_iff (carry_iff (s.reg x) (s.reg y))]
  exact ⟨_, exec_addV x y s, writesRegAndFlag_advance_setResultAndFlag s x _ _⟩

/-- Settles O34: no borrow is that the first operand is not the smaller one (R127, R129). -/
theorem subtractionsSetNoBorrow : Obligations.SubtractionsSetNoBorrow := by
  intro x y s
  simp only [ofInt_toNat_sub, ge_iff_le]
  rw [← flagByte_toNat_of_iff (noBorrow_iff (s.reg x) (s.reg y)), ← flagByte_toNat_of_iff (noBorrow_iff (s.reg y) (s.reg x))]
  exact ⟨⟨_, exec_sub x y s, writesRegAndFlag_advance_setResultAndFlag s x _ _⟩,
    ⟨_, exec_subn x y s, writesRegAndFlag_advance_setResultAndFlag s x _ _⟩⟩

/-- Settles O35: the bit shifted out is the remainder by 2, or the quotient by 128 (R128, R130). -/
theorem shiftsSetTheBitShiftedOut : Obligations.ShiftsSetTheBitShiftedOut := by
  intro x y s
  rw [ofNat_toNat_half, ofNat_toNat_double, ← lowBit_toNat, ← highBit_toNat]
  exact ⟨⟨_, exec_shr x y s, writesRegAndFlag_advance_setResultAndFlag s x _ _⟩,
    ⟨_, exec_shl x y s, writesRegAndFlag_advance_setResultAndFlag s x _ _⟩⟩

end Sys2Proof.Proofs
end

section
/-! Memory and the index register (20_memory.md, 42_index_memory.md): the canonical form determines memory, and what is
stored at ascending addresses is what loads and fetches read there. -/

namespace Sys2Proof.Proofs

open Sys2Proof Sys2Proof.Machine

/-! The canonical form -/

/-- In canonical form the cells are exactly those that differ from what reset left. -/
theorem Memory.mem_iff_of_wf (m : Memory) (h : m.wf) (c : Host.Cell) :
    c ∈ m ↔ c.1 < Config.memSize ∧ c.2 ≠ resetByte c.1 ∧ m.read c.1 = c.2 := by
  obtain ⟨hrising, hcells⟩ := h
  constructor
  · exact fun hc => ⟨(hcells c hc).1, (hcells c hc).2, Memory.read_listed m hrising c hc⟩
  · rintro ⟨-, hne, hread⟩
    by_cases hlisted : ∃ d ∈ m, d.1 = c.1
    · obtain ⟨d, hd, haddr⟩ := hlisted
      have hbyte : d.2 = c.2 := by rw [← Memory.read_listed m hrising d hd, haddr, hread]
      rwa [← Prod.ext haddr hbyte]
    · refine absurd (hread.symm.trans (Memory.read_unlisted m c.1 fun d hd haddr => ?_)) hne
      exact hlisted ⟨d, hd, haddr⟩

/-- Settles O5: both lists have the same cells, in rising order. -/
theorem canonicalMemoriesThatReadAlikeAreEqual : Obligations.CanonicalMemoriesThatReadAlikeAreEqual := by
  intro m m' h h' halike
  have hirrefl : Std.Irrefl fun c d : Host.Cell => c.1 < d.1 := ⟨fun _ => Nat.lt_irrefl _⟩
  have hantisymm : Std.Antisymm fun c d : Host.Cell => c.1 < d.1 := ⟨fun _ _ hlt hgt => absurd hlt (Nat.lt_asymm hgt)⟩
  refine h.1.eq_of_mem_iff h'.1 fun c => ?_
  rw [Memory.mem_iff_of_wf m h, Memory.mem_iff_of_wf m' h']
  refine and_congr_right fun hlt => ?_
  rw [halike c.1 hlt]

/-! The index register -/

theorem exec_addIV (x : Reg) (s : State) : exec (.addIV x) s = .next (s.setI (s.i + wideReg s x)).advance := rfl

theorem exec_ldF (x : Reg) (s : State) : exec (.ldF x) s = .next (s.setI (glyphAddress s x)).advance := rfl

/-- Settles O38: the sum wraps at sixteen bits, and the glyph's address does not reach them (R151, R152). -/
theorem indexAddAndGlyphAddress : Obligations.IndexAddAndGlyphAddress := by
  intro x s
  refine ⟨⟨_, exec_addIV x s, rfl, ?_⟩, ⟨_, exec_ldF x s, rfl, glyphAddress_toNat s x⟩⟩
  rw [State.advance_i, State.setI_i, BitVec.toNat_add, wideReg_toNat]

/-! Bytes at ascending addresses -/

theorem Memory.read_writeBytes_within (m : Memory) (a k : Nat) (bs : List Byte) (h : k < bs.length) :
    (m.writeBytes a bs).read (a + k) = bs[k] := by
  rw [Memory.read_writeBytes, dif_pos (by omega)]
  simp

theorem Memory.read_writeBytes_outside (m : Memory) (a b : Nat) (bs : List Byte) (h : b < a ∨ a + bs.length ≤ b) :
    (m.writeBytes a bs).read b = m.read b := by
  rw [Memory.read_writeBytes, dif_neg (by omega)]

/-- Each digit fits its byte (R153). -/
theorem decimalDigits_spec (b : Byte) :
    ∃ hundreds tens units, decimalDigits b = [hundreds, tens, units] ∧ hundreds.toNat = b.toNat / 100 ∧
      tens.toNat = b.toNat / 10 % 10 ∧ units.toNat = b.toNat % 10 := by
  have := b.isLt
  refine ⟨_, _, _, rfl, ?_, ?_, ?_⟩
  all_goals rw [BitVec.toNat_ofNat]; omega

/-- Settles O39: the digits lie at I, I + 1 and I + 2, and no byte outside is written (R153). -/
theorem bcdStoresThreeDigits : Obligations.BcdStoresThreeDigits := by
  refine fun x s => ⟨fun h => ?_, fun h => ⟨_, exec_ldB_beyond x s h, rfl, rfl⟩⟩
  obtain ⟨hundreds, tens, units, hdigits, hh, ht, hu⟩ := decimalDigits_spec (s.reg x)
  have hread (k : Nat) (hk : k < 3) :=
    Memory.read_writeBytes_within s.mem s.i.toNat k [hundreds, tens, units] hk
  rw [exec_ldB_within x s h, hdigits]
  refine ⟨_, rfl, rfl, ?_, ?_, ?_, fun a ha => ?_⟩
  · exact (congrArg BitVec.toNat (hread 0 (by decide))).trans hh
  · exact (congrArg BitVec.toNat (hread 1 (by decide))).trans ht
  · exact (congrArg BitVec.toNat (hread 2 (by decide))).trans hu
  · exact Memory.read_writeBytes_outside _ _ _ _ (by simp only [List.length_cons, List.length_nil]; omega)

/-- Settles O40: the k-th byte stored is V[k] (R154). -/
theorem registerDumpStoresV0ToVx : Obligations.RegisterDumpStoresV0ToVx := by
  refine fun x s => ⟨fun h => ?_, fun h => ⟨_, exec_stRegs_beyond x s h, rfl, rfl⟩⟩
  refine ⟨_, exec_stRegs_within x s h, rfl, fun k hk => ?_, fun a ha => ?_⟩
  · rw [← getElem_regsUpTo s x k hk]
    exact Memory.read_writeBytes_within _ _ _ _ _
  · exact Memory.read_writeBytes_outside _ _ _ _ (by rw [length_regsUpTo]; omega)

/-- Settles O41: V[k] is the byte at I + k up to x, and what it was above (R155). -/
theorem registerLoadReadsV0ToVx : Obligations.RegisterLoadReadsV0ToVx := by
  refine fun x s => ⟨fun h => ?_, fun h => ⟨_, exec_ldRegs_beyond x s h, rfl, rfl⟩⟩
  refine ⟨_, exec_ldRegs_within x s h, rfl, fun k hk => ?_, fun k hk => ?_⟩
  · exact (getElem_loadRegs _ _ _ _ _ _).trans (if_pos (by omega))
  · exact (getElem_loadRegs _ _ _ _ _ _).trans (if_neg (by omega))

/-- Settles O42: the load reads at I + k the byte that the dump stored there. -/
theorem registerLoadUndoesTheDump : Obligations.RegisterLoadUndoesTheDump := by
  intro x s t u hfits hdump hmem hi
  obtain ⟨t', ht', -, hstored, -⟩ := (registerDumpStoresV0ToVx x s).1 hfits
  obtain rfl := next_inj (ht'.symm.trans hdump)
  obtain ⟨w, hw, -, hloaded, -⟩ := (registerLoadReadsV0ToVx x u).1 (by rwa [hi])
  refine ⟨w, hw, fun k hk => ?_⟩
  rw [hloaded k hk, hmem, hi, hstored k hk]

/-- Settles O43: the two bytes at PC are those that the dump stored for k and k + 1. -/
theorem fetchSeesTheBytesJustStored : Obligations.FetchSeesTheBytesJustStored := by
  intro x k s t u hfits hk hdump hmem hpc
  obtain ⟨t', ht', -, hstored, -⟩ := (registerDumpStoresV0ToVx x s).1 hfits
  obtain rfl := next_inj (ht'.symm.trans hdump)
  have hsucc : (k + 1#4).toNat = k.toNat + 1 := by bv_omega
  have hlow := hstored (k + 1#4) (by omega)
  rw [hsucc, ← Nat.add_assoc] at hlow
  rw [u.fetch_some (by omega), wordOfBytes_eq_ofNat, hmem, hpc, hstored k (by omega), hlow]

end Sys2Proof.Proofs
end

section
/-! The display (43_display.md): clearing it, and a sprite drawn once and twice. -/

namespace Sys2Proof.Proofs

open Sys2Proof Sys2Proof.Machine

theorem exec_cls (s : State) : exec .cls s = .next (s.show FrameBuffer.blank).advance := rfl

/-- Settles O44: every pixel of the blank buffer is 0 (R170). -/
theorem clearScreenClearsEveryPixel : Obligations.ClearScreenClearsEveryPixel := fun s =>
  ⟨_, exec_cls s, rfl, FrameBuffer.pixel_blank⟩

theorem xor_ne_left_iff (a b : Bool) : (a ^^ b) ≠ a ↔ b = true := by revert a b; decide

theorem eq_of_toggled_alike {a b c : Bool} : (b ≠ a ↔ c ≠ b) → c = a := by revert a b c; decide

/-- The sprite that DRW reads covers the pixels that R171 says. -/
theorem spriteCovers_readBytes_iff (s : State) (cx cy n : Nat) (row : Fin 32) (col : Fin 64) :
    spriteCovers (s.mem.readBytes s.i.toNat n) cx cy row col ↔ SpriteBitOn s cx cy n row col := by
  have hlen := Memory.length_readBytes s.mem s.i.toNat n
  constructor
  · rintro ⟨r, hr, c, hc, hbit, rfl, rfl⟩
    rw [hlen] at hr
    rw [Memory.getElem_readBytes _ _ _ _ hr] at hbit
    exact ⟨r, hr, c, hc, hbit, rfl, rfl⟩
  · rintro ⟨r, hr, c, hc, hbit, hrow, hcol⟩
    refine ⟨r, hr.trans_eq hlen.symm, c, hc, ?_, Fin.ext hrow, Fin.ext hcol⟩
    rwa [Memory.getElem_readBytes _ _ _ _ hr]

/-- Settles O45: the drawer toggles the pixels that the sprite covers, and its detector is the flag (R171, R173). -/
theorem drawTogglesTheSpriteAndReportsCollision : Obligations.DrawTogglesTheSpriteAndReportsCollision := by
  classical
  refine fun x y n s => ⟨fun h => ?_, fun h => ⟨_, exec_drw_beyond x y n s h, rfl, rfl⟩⟩
  have hlen : (s.mem.readBytes s.i.toNat n.toNat).length ≤ 32 := by
    rw [Memory.length_readBytes]
    omega
  refine ⟨_, exec_drw_within x y n s h, rfl, fun row col => ?_, ?_, ?_, fun z hz => ?_⟩
  · rw [← spriteCovers_readBytes_iff, State.advance_fb, State.setReg_fb, State.show_fb, pixel_drawSprite _ _ _ _ hlen,
      xor_ne_left_iff, decide_eq_true_iff]
  · rw [State.advance_reg, State.reg_setReg_same]
    refine (flagByte_eq_one _).trans ((hit_drawSprite _ _ _ _ hlen).trans ?_)
    simp only [spriteCovers_readBytes_iff]
  · rw [State.advance_reg, State.reg_setReg_same]
    exact (Bool.eq_false_or_eq_true _).elim (fun h1 => .inr ((flagByte_eq_one _).mpr h1))
      fun h0 => .inl ((flagByte_eq_zero _).mpr h0)
  · exact State.reg_setReg_other _ _ _ _ hz

theorem spriteBitOn_congr {s u : State} (hmem : u.mem = s.mem) (hi : u.i = s.i) (cx cy n : Nat) (row : Fin 32)
    (col : Fin 64) : SpriteBitOn u cx cy n row col ↔ SpriteBitOn s cx cy n row col := by
  unfold SpriteBitOn
  rw [hmem, hi]

/-- Settles O46: both draws toggle the same pixels, so a covered pixel is lit before the second exactly when it was not
before the first (C5). -/
theorem drawingTwiceRestoresTheScreen : Obligations.DrawingTwiceRestoresTheScreen := by
  intro x y n s t u h hdraw hfb hmem hi hx hy
  obtain ⟨t', ht', -, hfirst, -⟩ := (drawTogglesTheSpriteAndReportsCollision x y n s).1 h
  obtain rfl := next_inj (ht'.symm.trans hdraw)
  obtain ⟨w, hw, -, hsecond, hflag, -⟩ := (drawTogglesTheSpriteAndReportsCollision x y n u).1 (by rwa [hi])
  simp only [hfb, hx, hy, spriteBitOn_congr hmem hi] at hsecond hflag
  refine ⟨w, hw, FrameBuffer.ext_pixel _ _ fun row col => ?_, hflag.trans ?_⟩
  · exact eq_of_toggled_alike ((hfirst row col).trans (hsecond row col).symm)
  · refine exists₂_congr fun row col => and_congr_right fun hon => ?_
    rw [Bool.eq_not_iff.mpr ((hfirst row col).mpr hon), Bool.not_eq_true']

end Sys2Proof.Proofs
end

section
/-! Reset and the host's transactions (60_exceptions.md, 70_reset_and_hazards.md). -/

namespace Sys2Proof.Proofs

open Sys2Proof Sys2Proof.Machine

/-! Reset -/

theorem length_fontBytes : fontBytes.length = 80 := rfl

theorem resetByte_outside_font (a : Nat) (h : a < 0x050 ∨ 0x09F < a) : resetByte a = 0x00#8 := by
  unfold resetByte
  rw [Config.fontBase]
  split
  · rfl
  · rw [List.getD_eq_default]
    rw [length_fontBytes]
    omega

/-- Memory right after reset reads as the font at the font's base (R251). -/
theorem readBytes_fontBase : State.reset.mem.readBytes Config.fontBase 80 = fontBytes := by decide

theorem reg_reset (x : Reg) : State.reset.reg x = 0#8 := by simp [State.reg, State.reset]

theorem keyDown_reset (k : Nibble) : State.reset.keyDown k = false := by simp [State.keyDown, State.reset]

/-- Settles O1: element by element; memory lists no cell, so it reads as `resetByte` everywhere (R250, R251). -/
theorem resetLeavesEveryElementAtItsResetValue : Obligations.ResetLeavesEveryElementAtItsResetValue :=
  ⟨rfl, rfl, rfl, rfl, rfl, rfl, rfl, reg_reset, fun k => Vector.getElem_replicate k.isLt, keyDown_reset,
    FrameBuffer.pixel_blank, resetByte_outside_font, readBytes_fontBase⟩

/-! Timers -/

/-- Settles O50: by induction on the number of ticks (R220). -/
theorem ticksCountTheTimersDownToZero : Obligations.TicksCountTheTimersDownToZero := by
  have htick (b : Byte) (k : Nat) : BitVec.ofNat 8 ((countDown b).toNat - k) = BitVec.ofNat 8 (b.toNat - (k + 1)) := by
    rw [countDown_toNat, Nat.sub_sub, Nat.add_comm 1 k]
  intro k s
  induction k generalizing s with
  | zero => simp [runTransactions]
  | succ k ih =>
    rw [List.replicate_succ, runTransactions, ih]
    simp only [transact, tick60Hz, htick]

/-! Loading and launching -/

/-- Settles O51: an image that fits is written from 0x200 on, and one that does not is refused before it is written (R252). -/
theorem loadImageCopiesOrRefusesWhole : Obligations.LoadImageCopiesOrRefusesWhole := by
  refine fun img s => ⟨fun h => ?_, transact_loadImage_tooLarge img s⟩
  exact ⟨_, transact_loadImage_fits img s h, rfl, fun k hk => Memory.read_writeBytes_within s.mem 0x200 k img hk,
    fun a ha => Memory.read_writeBytes_outside s.mem 0x200 a img ha⟩

/-- What a launch leaves: the reset state with the image in memory (R258). -/
theorem launched_cases {img : List Byte} {s : State} (h : Launched img s) :
    ∃ s₀, s = (resetTransaction s₀).setMem ((resetTransaction s₀).mem.writeBytes 0x200 img) := by
  obtain ⟨s₀, hload⟩ := h
  refine ⟨s₀, ?_⟩
  by_cases hlen : img.length ≤ 3584
  · rw [loadImage_fits img _ hlen] at hload
    exact (next_inj hload).symm
  · rw [loadImage_tooLarge img _ (by omega)] at hload
    cases hload

/-- Settles O52: PC is 0x200, where the load has put the first two bytes (R253). -/
theorem launchedProgramStartsAtItsFirstBytes : Obligations.LaunchedProgramStartsAtItsFirstBytes := by
  intro b₀ b₁ img s h
  obtain ⟨s₀, rfl⟩ := launched_cases h
  refine ⟨rfl, rfl, ?_⟩
  have hread (k : Nat) (hk : k < (b₀ :: b₁ :: img).length) :=
    Memory.read_writeBytes_within (resetTransaction s₀).mem 0x200 k (b₀ :: b₁ :: img) hk
  have hpc : (0x200#16).toNat ≤ 0xFFE := by decide
  rw [State.fetch_some _ hpc, ← wordOfBytes_eq_ofNat]
  exact congrArg some (congrArg₂ wordOfBytes (hread 0 (by simp)) (hread 1 (by simp)))

/-! The other transactions -/

theorem keyDown_setKey (s : State) (k j : Nibble) (b : Bool) :
    (setKey k b s).keyDown j = if j = k then b else s.keyDown j := by
  simp only [State.keyDown, setKey, Vector.getElem_set, BitVec.toNat_inj, eq_comm]

theorem Memory.read_write (m : Memory) (a c : Nat) (b : Byte) :
    (m.write a b).read c = if c = a then b else m.read c := by
  split
  · next h => rw [h, Memory.read_write_same]
  · next h => exact Memory.read_write_other m a c b h

/-- Settles O53: each writes the one element it names, and the reads of that element are those of its own law. -/
theorem hostTransactionsWriteOnlyWhatTheyName : Obligations.HostTransactionsWriteOnlyWhatTheyName := fun s =>
  ⟨rfl, rfl, rfl, rfl, fun k b => ⟨rfl, fun j => keyDown_setKey s k j b⟩, fun _ => rfl,
    fun a b => ⟨rfl, fun c => Memory.read_write s.mem a.toNat c b⟩⟩

end Sys2Proof.Proofs
end

section
/-! Several cores (60_exceptions.md R231): a call is a transaction on one of them, and no transaction changes which source a
core draws from. -/

namespace Sys2Proof.Proofs

open Sys2Proof Sys2Proof.Machine

/-- Settles O55: by induction on the calls; the first one is the core's own transaction, or leaves it as it was. -/
theorem eachCoreRunsAsIfAlone : Obligations.EachCoreRunsAsIfAlone := by
  intro calls cores j
  induction calls generalizing cores with
  | nil => simp [Cores.run, callsTo, runTransactions]
  | cons c calls ih =>
    rw [Cores.run, ih, Cores.getElem?_call, callsTo_cons, Option.map_map]
    congr 1
    funext s
    by_cases hj : c.core = j
    · simp [hj, runTransactions]
    · simp [hj]

/-- A call keeps the source of every core. -/
theorem sources_call (c : Call) (cores : Cores) : (Cores.call c cores).map State.source = cores.map State.source := by
  refine List.ext_getElem? fun j => ?_
  rw [List.getElem?_map, List.getElem?_map, Cores.getElem?_call, Option.map_map]
  congr 1
  funext s
  by_cases hj : c.core = j
  · simp [hj, transact_source]
  · simp [hj]

theorem sources_run (calls : List Call) (cores : Cores) :
    (Cores.run calls cores).map State.source = cores.map State.source := by
  induction calls generalizing cores with
  | nil => rfl
  | cons c calls ih => rw [Cores.run, ih, sources_call]

theorem sources_construct (n : Nat) : (Cores.construct n).map State.source = List.range n := by
  have hsource : State.source ∘ State.construct = id := rfl
  rw [Cores.construct, List.map_map, hsource, List.map_id]

/-- Settles O56: the cores are constructed with the numbers 0, 1, …, and a run keeps them all. -/
theorem noTwoCoresShareARandomSource : Obligations.NoTwoCoresShareARandomSource := by
  refine ⟨fun n => ?_, fun calls cores h => ?_⟩
  · rw [Cores.SourcesApart, sources_construct]
    exact List.nodup_range
  · rwa [Cores.SourcesApart, sources_run]

end Sys2Proof.Proofs
end
